-- ==== Sys2Proof/Config.lean ====
section
/-! DEFINITION. What one block instance fixes: its floating format (E, F), the parameter of
`00_scope.md` rule R5, and the fixed numbers of the block that the spec chose. -/

namespace Sys2Proof

/-- A binary floating format with an implicit leading bit: `E` exponent-field bits and `F`
fraction-field bits (`00_scope.md` R5, `40_fp_primitives.md` R60). -/
structure Fmt where
  /-- Number of exponent-field bits. -/
  E : Nat
  /-- Number of fraction-field bits. -/
  F : Nat
  deriving DecidableEq, Repr

/-- Width of a floating value, `N = 1 + E + F` (R5, R60). -/
abbrev Fmt.N (f : Fmt) : Nat := 1 + (f.E + f.F)

/-- Exponent bias, `2^(E-1) - 1` (R5, R60). -/
def Fmt.bias (f : Fmt) : Nat := 2 ^ (f.E - 1) - 1

/-- The all-ones biased exponent, `2^E - 1` (R5, R60). -/
def Fmt.emaxb (f : Fmt) : Nat := 2 ^ f.E - 1

/-- The formats a block may be built for: `3 ≤ E ≤ 15` and `1 ≤ F ≤ BIAS` (R5, R60). -/
abbrev Fmt.WF (f : Fmt) : Prop := 3 ≤ f.E ∧ f.E ≤ 15 ∧ 1 ≤ f.F ∧ f.F ≤ f.bias

/-- binary16 (R5, R60). -/
def Fmt.binary16 : Fmt := ⟨5, 10⟩

/-- bfloat16 (R5, R60). -/
def Fmt.bfloat16 : Fmt := ⟨8, 7⟩

/-- binary32 (R5, R60). -/
def Fmt.binary32 : Fmt := ⟨8, 23⟩

/-- binary64 (R5, R60). -/
def Fmt.binary64 : Fmt := ⟨11, 52⟩

/-- binary128 (R5, R60). -/
def Fmt.binary128 : Fmt := ⟨15, 112⟩

/-- DESIGN CHOICE (log entry 1, unsafe): the format of the one machine `Sys2Proof.core` names.
R5 leaves (E, F) open; the test vectors of `95_test_vectors.md` are binary32.  No meaning reads this
constant: every meaning takes the format its state carries, and the statements quantify over it. -/
def Config.fmt : Fmt := Fmt.binary32

/-- `ENV.FRM` after reset, 3 = NE (`10_state.md` R23, `70_reset_and_hazards.md` R140). -/
def Config.resetFrm : BitVec 3 := 3#3

end Sys2Proof
end

