-- ==== Sys2Proof/Word.lean ====
section
/-! DEFINITION. The words of the block's ports (`20_memory.md` R30). -/

namespace Sys2Proof

/-- A command word, `cmd[31:0]` (`30_encoding.md` R45). -/
abbrev CmdWord := BitVec 32

/-- A floating value of format `f`: the N-bit pattern of `x_in` and `y_out` (`40_fp_primitives.md`
R61). -/
abbrev FpWord (f : Fmt) := BitVec f.N

/-- A whole `ENV` register as the host moves it (`10_state.md` R16). DESIGN CHOICE (log entry 7):
the spec gives the transfer no width; 32 bits hold every value it writes. -/
abbrev HostWord := BitVec 32

end Sys2Proof
end

