-- ==== Sys2Proof/Syntax.lean ====
section
/-! DEFINITION. The twelve commands with their parameters (`30_encoding.md` R48), and the names the
spec gives to what they are made of: modes, native integer widths, formats, sub-blocks. -/

namespace Sys2Proof

/-- The five rounding-direction modes (`30_encoding.md` R50). -/
inductive Mode where
  /-- toward −∞ -/
  | dn
  /-- toward +∞ -/
  | up
  /-- toward zero -/
  | tz
  /-- nearest, ties to even -/
  | ne
  /-- nearest, ties away from zero -/
  | na
  deriving DecidableEq, Repr

/-- The native signed integer types of RTSI and RTSIC (`30_encoding.md` R52). -/
inductive IntWidth where
  | i8
  | i16
  | i32
  | i64
  deriving DecidableEq, Repr

/-- The commands.  `w` is the target bit width of the bounded conversions as an unbounded integer,
as the rules use it (`40_fp_primitives.md` R73 (b)); the 16-bit field that carries it is a check of
`Instr.wellFormed` (R51). -/
inductive Instr where
  /-- TRUNC (R81) -/
  | trunc
  /-- CEIL (R82) -/
  | ceil
  /-- FLOOR (R83) -/
  | floor
  /-- ROUND (R84) -/
  | round
  /-- RNDM mode (R91) -/
  | rndm (mode : Mode)
  /-- RNDC (R95) -/
  | rndc
  /-- FROMFP mode, w (R104) -/
  | fromfp (mode : Mode) (w : Nat)
  /-- UFROMFP mode, w (R105) -/
  | ufromfp (mode : Mode) (w : Nat)
  /-- FROMFPX mode, w (R106) -/
  | fromfpx (mode : Mode) (w : Nat)
  /-- UFROMFPX mode, w (R107) -/
  | ufromfpx (mode : Mode) (w : Nat)
  /-- RTSI.iw (R111) -/
  | rtsi (iw : IntWidth)
  /-- RTSIC.iw (R112) -/
  | rtsic (iw : IntWidth)
  deriving DecidableEq, Repr

/-- The four operation sub-blocks (`00_scope.md` R2). -/
inductive SubBlock where
  /-- the `fp_rounder` selector -/
  | selector
  /-- the `mode_parameterized_rounder` -/
  | modeRounder
  /-- the `bounded_int_converter` -/
  | boundedConverter
  /-- the `native_int_converter` -/
  | nativeConverter
  deriving DecidableEq, Repr

/-- The four command formats (`30_encoding.md` R47). -/
inductive CmdFormat where
  | c0
  | cm
  | cw
  | ci
  deriving DecidableEq, Repr

/-- The sub-block that executes a command (`00_scope.md` R2). -/
def Instr.subBlock : Instr → SubBlock
  | .trunc => .selector
  | .ceil => .selector
  | .floor => .selector
  | .round => .selector
  | .rndm _ => .modeRounder
  | .rndc => .modeRounder
  | .fromfp _ _ => .boundedConverter
  | .ufromfp _ _ => .boundedConverter
  | .fromfpx _ _ => .boundedConverter
  | .ufromfpx _ _ => .boundedConverter
  | .rtsi _ => .nativeConverter
  | .rtsic _ => .nativeConverter

/-- The format of a command (`30_encoding.md` R47). -/
def Instr.cmdFormat : Instr → CmdFormat
  | .trunc => .c0
  | .ceil => .c0
  | .floor => .c0
  | .round => .c0
  | .rndm _ => .cm
  | .rndc => .c0
  | .fromfp _ _ => .cw
  | .ufromfp _ _ => .cw
  | .fromfpx _ _ => .cw
  | .ufromfpx _ _ => .cw
  | .rtsi _ => .ci
  | .rtsic _ => .ci

/-- The commands that read the ambient mode: RNDC and RTSIC only (`10_state.md` R10). -/
def Instr.readsAmbientMode : Instr → Bool
  | .trunc => false
  | .ceil => false
  | .floor => false
  | .round => false
  | .rndm _ => false
  | .rndc => true
  | .fromfp _ _ => false
  | .ufromfp _ _ => false
  | .fromfpx _ _ => false
  | .ufromfpx _ _ => false
  | .rtsi _ => false
  | .rtsic _ => true

/-- The target width of a bounded conversion, which the other commands do not have. -/
def Instr.targetWidth : Instr → Option Nat
  | .trunc => none
  | .ceil => none
  | .floor => none
  | .round => none
  | .rndm _ => none
  | .rndc => none
  | .fromfp _ w => some w
  | .ufromfp _ w => some w
  | .fromfpx _ w => some w
  | .ufromfpx _ w => some w
  | .rtsi _ => none
  | .rtsic _ => none

end Sys2Proof
end

