-- ==== Sys2Proof/WellFormed.lean ====
section
/-! DEFINITION. Which commands a command word can carry.  Modes and native widths are types with no
illegal member, so the one check left is the 16-bit width field (`30_encoding.md` R51). -/

namespace Sys2Proof

/-- The target width fits the command word's 16-bit field: `0 ≤ w ≤ 65535` (R51). -/
def widthFits (w : Nat) : Bool := decide (w < 2 ^ 16)

/-- A command that some command word encodes. -/
def Instr.wellFormed : Instr → Bool
  | .trunc => true
  | .ceil => true
  | .floor => true
  | .round => true
  | .rndm _ => true
  | .rndc => true
  | .fromfp _ w => widthFits w
  | .ufromfp _ w => widthFits w
  | .fromfpx _ w => widthFits w
  | .ufromfpx _ w => widthFits w
  | .rtsi _ => true
  | .rtsic _ => true

end Sys2Proof
end

