-- ==== Sys2Proof/Decode.lean ====
section
/-! DEFINITION. The command word: its fields (`30_encoding.md` R46), the codes in them (R50, R52),
decoding as a total function (R53, R54), the encoder, and the opcode table (R48). -/

namespace Sys2Proof

/-! ### Fields (R46) -/

/-- `op`, bits 3:0. -/
def opField (w : CmdWord) : BitVec 4 := w.extractLsb' 0 4

/-- `mode`, bits 6:4. -/
def modeField (w : CmdWord) : BitVec 3 := w.extractLsb' 4 3

/-- `rsv7`, bit 7. -/
def rsv7Field (w : CmdWord) : BitVec 1 := w.extractLsb' 7 1

/-- `isel`, bits 9:8. -/
def iselField (w : CmdWord) : BitVec 2 := w.extractLsb' 8 2

/-- `rsv10`, bits 15:10. -/
def rsv10Field (w : CmdWord) : BitVec 6 := w.extractLsb' 10 6

/-- `width`, bits 31:16. -/
def widthField (w : CmdWord) : BitVec 16 := w.extractLsb' 16 16

/-- A command word from its fields, the reserved bits zero. -/
def commandWord (width : BitVec 16) (isel : BitVec 2) (mode : BitVec 3) (op : BitVec 4) : CmdWord :=
  width ++ (0#6 ++ (isel ++ (0#1 ++ (mode ++ op))))

/-! ### Codes (R50, R52) -/

/-- The 3-bit code of a mode (R50). -/
def Mode.code : Mode → BitVec 3
  | .dn => 0#3
  | .up => 1#3
  | .tz => 2#3
  | .ne => 3#3
  | .na => 4#3

/-- The mode a code names; 5, 6 and 7 are not modes (R50). -/
def Mode.ofCode (c : BitVec 3) : Option Mode :=
  match c.toNat with
  | 0 => some .dn
  | 1 => some .up
  | 2 => some .tz
  | 3 => some .ne
  | 4 => some .na
  | _ => none

/-- The 2-bit `isel` code of a native integer width (R52). -/
def IntWidth.isel : IntWidth → BitVec 2
  | .i8 => 0#2
  | .i16 => 1#2
  | .i32 => 2#2
  | .i64 => 3#2

/-- The native integer width an `isel` code selects (R52): every code selects one. -/
def IntWidth.ofIsel (c : BitVec 2) : IntWidth :=
  if c = 0#2 then .i8 else if c = 1#2 then .i16 else if c = 2#2 then .i32 else .i64

/-- IW in bits (R52). -/
def IntWidth.bits : IntWidth → Nat
  | .i8 => 8
  | .i16 => 16
  | .i32 => 32
  | .i64 => 64

/-! ### Decoding (R53, R54) -/

/-- Why a word is illegal (R54).  The block's response does not tell them apart (R125). -/
inductive Illegal where
  /-- `op` is 6, 7, 14 or 15 -/
  | reservedOp
  /-- `rsv7` or `rsv10` is non-zero -/
  | reservedBits
  /-- a field the format does not use is non-zero -/
  | unusedField
  /-- `mode` is 5, 6 or 7 in a format that uses it -/
  | badMode
  deriving DecidableEq, Repr

/-- Format C0 uses no field (R47). -/
def decodeC0 (w : CmdWord) (i : Instr) : Except Illegal Instr :=
  if modeField w ≠ 0#3 ∨ iselField w ≠ 0#2 ∨ widthField w ≠ 0#16 then .error .unusedField
  else .ok i

/-- Format CM uses `mode` (R47). -/
def decodeCM (w : CmdWord) (mk : Mode → Instr) : Except Illegal Instr :=
  if iselField w ≠ 0#2 ∨ widthField w ≠ 0#16 then .error .unusedField
  else
    match Mode.ofCode (modeField w) with
    | some m => .ok (mk m)
    | none => .error .badMode

/-- Format CW uses `mode` and `width` (R47); `w = zext(cmd.width)` (R51). -/
def decodeCW (w : CmdWord) (mk : Mode → Nat → Instr) : Except Illegal Instr :=
  if iselField w ≠ 0#2 then .error .unusedField
  else
    match Mode.ofCode (modeField w) with
    | some m => .ok (mk m (widthField w).toNat)
    | none => .error .badMode

/-- Format CI uses `isel` (R47). -/
def decodeCI (w : CmdWord) (mk : IntWidth → Instr) : Except Illegal Instr :=
  if modeField w ≠ 0#3 ∨ widthField w ≠ 0#16 then .error .unusedField
  else .ok (mk (IntWidth.ofIsel (iselField w)))

/-- `decode` of R53: a command with its parameters, or the reason the word is illegal. -/
def decode (w : CmdWord) : Except Illegal Instr :=
  if rsv7Field w ≠ 0#1 ∨ rsv10Field w ≠ 0#6 then .error .reservedBits
  else
    match (opField w).toNat with
    | 0 => decodeC0 w .trunc
    | 1 => decodeC0 w .ceil
    | 2 => decodeC0 w .floor
    | 3 => decodeC0 w .round
    | 4 => decodeCM w .rndm
    | 5 => decodeC0 w .rndc
    | 8 => decodeCW w .fromfp
    | 9 => decodeCW w .ufromfp
    | 10 => decodeCW w .fromfpx
    | 11 => decodeCW w .ufromfpx
    | 12 => decodeCI w .rtsi
    | 13 => decodeCI w .rtsic
    | _ => .error .reservedOp

/-- The instruction a word of the opcode table's numbering stands for: the command word is one word,
so its bits are the table's bits, and those above `nbits` are zero (R45). -/
def decodeTableWord (nbits w : Nat) : Option Instr :=
  match decode (BitVec.ofNat 32 (w % 2 ^ nbits)) with
  | .ok i => some i
  | .error _ => none

/-! ### Encoding (R46 to R52) -/

/-- The `op` code of a command (R48). -/
def Instr.opcode : Instr → BitVec 4
  | .trunc => 0#4
  | .ceil => 1#4
  | .floor => 2#4
  | .round => 3#4
  | .rndm _ => 4#4
  | .rndc => 5#4
  | .fromfp _ _ => 8#4
  | .ufromfp _ _ => 9#4
  | .fromfpx _ _ => 10#4
  | .ufromfpx _ _ => 11#4
  | .rtsi _ => 12#4
  | .rtsic _ => 13#4

/-- The word of a command (R46, R48): used fields by their codes, every other bit zero. -/
def encode : Instr → CmdWord
  | .trunc => commandWord 0#16 0#2 0#3 0#4
  | .ceil => commandWord 0#16 0#2 0#3 1#4
  | .floor => commandWord 0#16 0#2 0#3 2#4
  | .round => commandWord 0#16 0#2 0#3 3#4
  | .rndm m => commandWord 0#16 0#2 m.code 4#4
  | .rndc => commandWord 0#16 0#2 0#3 5#4
  | .fromfp m w => commandWord (BitVec.ofNat 16 w) 0#2 m.code 8#4
  | .ufromfp m w => commandWord (BitVec.ofNat 16 w) 0#2 m.code 9#4
  | .fromfpx m w => commandWord (BitVec.ofNat 16 w) 0#2 m.code 10#4
  | .ufromfpx m w => commandWord (BitVec.ofNat 16 w) 0#2 m.code 11#4
  | .rtsi iw => commandWord 0#16 iw.isel 0#3 12#4
  | .rtsic iw => commandWord 0#16 iw.isel 0#3 13#4

/-- The two bits `op[3:2]` that select a sub-block (R49). -/
def SubBlock.code : SubBlock → BitVec 2
  | .selector => 0#2
  | .modeRounder => 1#2
  | .boundedConverter => 2#2
  | .nativeConverter => 3#2

/-! ### The opcode table (R48) -/

/-- A row of R48: a word selects it when `(cmd & mask) == match` and the `legal` condition holds. -/
structure OpRow where
  mnemonic : String
  fmt : CmdFormat
  pattern : CmdWord
  mask : CmdWord
  /-- the `legal` column says `mode ≤ 4` -/
  modeLegal : Bool
  deriving DecidableEq, Repr

/-- The table of R48. -/
def opTable : List OpRow :=
  [ ⟨"TRUNC", .c0, 0x00000000#32, 0xFFFFFFFF#32, false⟩,
    ⟨"CEIL", .c0, 0x00000001#32, 0xFFFFFFFF#32, false⟩,
    ⟨"FLOOR", .c0, 0x00000002#32, 0xFFFFFFFF#32, false⟩,
    ⟨"ROUND", .c0, 0x00000003#32, 0xFFFFFFFF#32, false⟩,
    ⟨"RNDM", .cm, 0x00000004#32, 0xFFFFFF8F#32, true⟩,
    ⟨"RNDC", .c0, 0x00000005#32, 0xFFFFFFFF#32, false⟩,
    ⟨"FROMFP", .cw, 0x00000008#32, 0x0000FF8F#32, true⟩,
    ⟨"UFROMFP", .cw, 0x00000009#32, 0x0000FF8F#32, true⟩,
    ⟨"FROMFPX", .cw, 0x0000000A#32, 0x0000FF8F#32, true⟩,
    ⟨"UFROMFPX", .cw, 0x0000000B#32, 0x0000FF8F#32, true⟩,
    ⟨"RTSI", .ci, 0x0000000C#32, 0xFFFFFCFF#32, false⟩,
    ⟨"RTSIC", .ci, 0x0000000D#32, 0xFFFFFCFF#32, false⟩ ]

/-- A word selects a row of the table (R48). -/
def OpRow.selects (r : OpRow) (w : CmdWord) : Bool :=
  w &&& r.mask == r.pattern && (!r.modeLegal || decide ((modeField w).toNat ≤ 4))

/-- The mnemonic of a command, as `opcode_table.json` spells it (R48). -/
def Instr.mnemonic : Instr → String
  | .trunc => "TRUNC"
  | .ceil => "CEIL"
  | .floor => "FLOOR"
  | .round => "ROUND"
  | .rndm _ => "RNDM"
  | .rndc => "RNDC"
  | .fromfp _ _ => "FROMFP"
  | .ufromfp _ _ => "UFROMFP"
  | .fromfpx _ _ => "FROMFPX"
  | .ufromfpx _ _ => "UFROMFPX"
  | .rtsi _ => "RTSI"
  | .rtsic _ => "RTSIC"

end Sys2Proof
end

