-- ==== Sys2Proof/Machine/State.lean ====
section
/-! DEFINITION. What the machine holds: the environment `ENV` (`10_state.md` R10), the command in
flight (R19), the ports of the last step (`20_memory.md` R30), and the host's events still to come
(R12).  Plain data only. -/

namespace Sys2Proof.Machine

/-- The environment `ENV`, the block's only architectural state: six bits (`10_state.md` R10). -/
structure Env where
  /-- `ENV.FRM`, register 0: the ambient mode's code, any 3-bit value (R13). -/
  frm : BitVec 3
  /-- `ENV.FFLAGS.NV`, register 1 bit 0: invalid operation, sticky (R14). -/
  nv : Bool
  /-- `ENV.FFLAGS.NX`, register 1 bit 1: inexact, sticky (R14). -/
  nx : Bool
  /-- `ENV.FERRNO.EDOM`, register 2 bit 0: domain error, sticky (R15). -/
  edom : Bool
  deriving DecidableEq, Repr

/-- The values sampled when a command is accepted (`10_state.md` R19, `20_memory.md` R31). -/
structure Latch (f : Fmt) where
  /-- the command word -/
  cmd : CmdWord
  /-- the operand `x` -/
  x : FpWord f
  /-- `frm_s`, the value of `ENV.FRM` at acceptance -/
  frmS : BitVec 3
  deriving DecidableEq, Repr

/-- The outputs of one response (`20_memory.md` R30, `60_exceptions.md` R120). -/
structure Response (f : Fmt) where
  /-- `err`: 0 OK, 1 ILLEGAL_CMD, 2 ENV_MODE_UNDEFINED (R125) -/
  err : BitVec 2
  yOut : FpWord f
  iOut : BitVec 64
  nv : Bool
  nx : Bool
  edom : Bool
  deriving DecidableEq, Repr

/-- The host's two operations on `ENV`, by register number (`10_state.md` R16). -/
inductive HostAccess where
  | hread (n : Nat)
  | hwrite (n : Nat) (v : HostWord)
  deriving DecidableEq, Repr

/-- One event of the host (`20_memory.md` R37).  `command` is a whole transaction; `accept` and
`respond` are its two ends, for a host that does something in between (`70_reset_and_hazards.md`
R142). -/
inductive HostEvent (f : Fmt) where
  /-- HREAD or HWRITE -/
  | access (a : HostAccess)
  /-- a command word and its operand are presented, accepted and answered (R31, R32) -/
  | command (cmd : CmdWord) (x : FpWord f)
  /-- a command word and its operand are presented; the response comes later (R31): in the cycle a
  `respond` names, or when no event is left (R32, log entry 17) -/
  | accept (cmd : CmdWord) (x : FpWord f)
  /-- the response cycle of the command in flight (R32), with a host access in that same cycle or
  none -/
  | respond (a : Option HostAccess)
  /-- a cycle with `rst_n` = 0 (`70_reset_and_hazards.md` R140) -/
  | reset
  deriving DecidableEq, Repr

/-- A block instance of format `f`, its environment, and its host. -/
structure Block (f : Fmt) where
  env : Env
  /-- a command is in flight: `cmd_ready` = 0 (`20_memory.md` R30, R32) -/
  busy : Bool
  /-- the latches of the last accepted command; dead unless `busy` (R19) -/
  latch : Latch f
  /-- the response ports: `none` is `rsp_valid` = 0, where they hold no value (R32, R140) -/
  rsp : Option (Response f)
  /-- the value this step's HREAD returned, if it was one (R16) -/
  hostData : Option HostWord
  /-- the host's events still to come, first first (R12) -/
  host : List (HostEvent f)
  deriving DecidableEq, Repr

/-- The machine: an instance's format, which no step changes (`10_state.md` R22, log entry 1), and
the block of that format. -/
structure State where
  fmt : Fmt
  block : Block fmt
  deriving DecidableEq, Repr

/-- Why a run faults.  The spec has a model treat both error responses as faults of the run
(`60_exceptions.md` R126, R127; log entry 4). -/
inductive Fault where
  /-- ILLEGAL_CMD: the accepted word does not decode.  Raised by answering a command, never by a
  meaning.  Safe: the hardware answers `err` = 1, changes nothing and goes on. -/
  | illegalCmd
  /-- ENV_MODE_UNDEFINED: RNDC or RTSIC sampled `frm_s` > 4.  Raised by those two meanings.  Safe:
  the hardware answers `err` = 2, changes nothing and goes on. -/
  | envModeUndefined
  deriving DecidableEq, Repr

/-- Why the model refuses to go on. -/
inductive Refusal where
  /-- An arm of `exec` without a meaning; no arm is so.  Safe: nothing follows from it. -/
  | notModelled (mnemonic : String)
  /-- A host write to FFLAGS or FERRNO in the very cycle a response accumulates into them.  Raised by
  the `respond` event.  Safe: the spec gives the collision no outcome and says to refuse it
  (`93_implementation_defined.md` U6, `20_memory.md` R37 clause 4). -/
  | envWriteCollision
  deriving DecidableEq, Repr

/-- `ENV` after reset (`10_state.md` R23, `70_reset_and_hazards.md` R140). -/
def Env.reset : Env := ⟨Config.resetFrm, false, false, false⟩

/-- The latches before any command.  DESIGN CHOICE (log entry 5, unsafe): the spec calls them empty;
the zeros are dead until an acceptance overwrites them. -/
def Latch.empty (f : Fmt) : Latch f := ⟨0#32, 0#f.N, 0#3⟩

/-- A block of format `f` right after reset: no command in flight, `rsp_valid` = 0, no event of the
host (R23, R140). -/
def Block.reset (f : Fmt) : Block f :=
  { env := Env.reset, busy := false, latch := Latch.empty f, rsp := none, hostData := none, host := [] }

/-- The machine of format `f` right after reset. -/
def State.resetOf (f : Fmt) : State := ⟨f, Block.reset f⟩

/-- The machine right after reset, for the format `Config.fmt` (log entry 1). -/
def State.reset : State := State.resetOf Config.fmt

end Sys2Proof.Machine
end

