-- ==== Sys2Proof/Machine/Operands.lean ====
section
/-! DEFINITION. The floating operand: layout, accessors, classes, constants, and the bit-level
primitives every command is written in (`40_fp_primitives.md` R60 to R73).  Each takes the format. -/

namespace Sys2Proof.Machine

/-! ### Layout and accessors (R61, R62) -/

/-- `sign(x) = x[N-1]`. -/
def sign (f : Fmt) (x : FpWord f) : BitVec 1 := x.extractLsb' (f.E + f.F) 1

/-- `bexp(x) = x[N-2:F]`, the biased exponent. -/
def bexp (f : Fmt) (x : FpWord f) : BitVec f.E := x.extractLsb' f.F f.E

/-- `mant(x) = x[F-1:0]`, the fraction field. -/
def mant (f : Fmt) (x : FpWord f) : BitVec f.F := x.extractLsb' 0 f.F

/-- `x[N-2:0]`, the magnitude field `{bexp, mant}` (R69, R71). -/
def mag (f : Fmt) (x : FpWord f) : BitVec (f.E + f.F) := x.extractLsb' 0 (f.E + f.F)

/-- `pack(s, be, m) = {s, be, m}`. -/
def pack (f : Fmt) (s : BitVec 1) (be : BitVec f.E) (m : BitVec f.F) : FpWord f := s ++ (be ++ m)

/-- `is_neg(x)`: the sign bit alone, whatever the class. -/
def isNeg (f : Fmt) (x : FpWord f) : Bool := sign f x == 1#1

/-! ### Classification (R63) -/

/-- `bexp(x) == EMAXB`. -/
def isInfOrNan (f : Fmt) (x : FpWord f) : Bool := (bexp f x).toNat == f.emaxb

def isZero (f : Fmt) (x : FpWord f) : Bool := (bexp f x).toNat == 0 && (mant f x).toNat == 0

def isSubnormal (f : Fmt) (x : FpWord f) : Bool := (bexp f x).toNat == 0 && (mant f x).toNat != 0

def isNormal (f : Fmt) (x : FpWord f) : Bool :=
  decide (1 ≤ (bexp f x).toNat) && decide ((bexp f x).toNat ≤ f.emaxb - 1)

def isInf (f : Fmt) (x : FpWord f) : Bool := isInfOrNan f x && (mant f x).toNat == 0

def isNan (f : Fmt) (x : FpWord f) : Bool := isInfOrNan f x && (mant f x).toNat != 0

def isFinite (f : Fmt) (x : FpWord f) : Bool := !isInfOrNan f x

/-- `exponent(x) = bexp(x) - BIAS`, for every `x`; `-BIAS` for zeros and subnormals (R64). -/
def exponent (f : Fmt) (x : FpWord f) : Int := ((bexp f x).toNat : Int) - (f.bias : Int)

/-! ### Constants and negation (R66, R67) -/

/-- ±0. -/
def zero (f : Fmt) (s : BitVec 1) : FpWord f := pack f s 0 0

/-- ±1.0. -/
def one (f : Fmt) (s : BitVec 1) : FpWord f := pack f s (BitVec.ofNat f.E f.bias) 0

/-- ±2.0. -/
def two (f : Fmt) (s : BitVec 1) : FpWord f := pack f s (BitVec.ofNat f.E (f.bias + 1)) 0

/-- The one NaN the block constructs: positive, only the top mantissa bit set. -/
def qnan (f : Fmt) : FpWord f :=
  pack f 0#1 (BitVec.ofNat f.E f.emaxb) (BitVec.ofNat f.F (2 ^ (f.F - 1)))

/-- `neg(x) = x ^ (1 << (N-1))`. -/
def neg (f : Fmt) (x : FpWord f) : FpWord f := x ^^^ (BitVec.ofNat f.N 1 <<< (f.N - 1))

/-! ### Truncation and increment (R68, R69)

The rules form these only for `0 ≤ exponent(x) ≤ F-1`, and the commands ask that first; elsewhere the
value of these total functions means nothing (log entry 12). -/

/-- `trim = F - exponent(x)`, the number of mantissa bits below the binary point. -/
def trimOf (f : Fmt) (x : FpWord f) : Nat := ((f.F : Int) - exponent f x).toNat

/-- `trunc_bits(x)`: the low `trim` mantissa bits cleared. -/
def truncBits (f : Fmt) (x : FpWord f) : FpWord f :=
  pack f (sign f x) (bexp f x) ((mant f x >>> trimOf f x) <<< trimOf f x)

/-- `rem(x) = mant(x)[trim-1:0]`, the fractional remainder. -/
def rem (f : Fmt) (x : FpWord f) : Nat := (mant f x).toNat % 2 ^ trimOf f x

/-- `half(x) = 1 << (trim - 1)`. -/
def half (f : Fmt) (x : FpWord f) : Nat := 2 ^ (trimOf f x - 1)

/-- `inc_away(t, trim)`: the magnitude field plus `1 << trim`, the sign kept. -/
def incAway (f : Fmt) (t : FpWord f) (trim : Nat) : FpWord f :=
  sign f t ++ (mag f t + (BitVec.ofNat (f.E + f.F) 1 <<< trim))

/-! ### Integer value and numeric equality (R70, R71) -/

/-- `(-1)^sign(x)` applied to a magnitude. -/
def applySign (f : Fmt) (x : FpWord f) (n : Nat) : Int := if isNeg f x then -(n : Int) else (n : Int)

/-- `int_of(y)`, the integer an integral value is. -/
def intOf (f : Fmt) (y : FpWord f) : Int :=
  if isZero f y then 0
  else if exponent f y ≤ (f.F : Int) then
    applySign f y ((2 ^ f.F + (mant f y).toNat) >>> ((f.F : Int) - exponent f y).toNat)
  else
    applySign f y ((2 ^ f.F + (mant f y).toNat) <<< (exponent f y - (f.F : Int)).toNat)

/-- Numeric equality of two finite values, by their bits: equal patterns, or zeros of either sign
(R71). -/
def numEq (f : Fmt) (a b : FpWord f) : Bool := (isZero f a && isZero f b) || a == b

end Sys2Proof.Machine
end

