-- ==== Sys2Proof/Machine/Flags.lean ====
section
/-! DEFINITION. The three floating-point signals: which command raises which (`60_exceptions.md` R121
to R124), and how `ENV` accumulates them (`10_state.md` R17). -/

namespace Sys2Proof.Machine

/-- The signal bits of one response, the source's "raise invalid-operation", "raise inexact", "set
domain error" (`00_scope.md` R7). -/
structure Signals where
  nv : Bool
  nx : Bool
  edom : Bool
  deriving DecidableEq, Repr

/-- No signal: the exception-free family, RNDM and RNDC (R80, R90, R121). -/
def Signals.none : Signals := ⟨false, false, false⟩

/-- `inexact(x, y)`: the result is not NaN and differs from `x` numerically
(`43_bounded_conversion.md` R108). -/
def inexact (f : Fmt) (x y : FpWord f) : Bool := !isNan f y && !numEq f y x

/-- FROMFP and UFROMFP: `nv = dom_err`, nothing else (R104, R105). -/
def boundedSignals (domErr : Bool) : Signals := ⟨domErr, false, false⟩

/-- FROMFPX and UFROMFPX: `nv = dom_err`, and `nx` when the result is inexact (R106, R107). -/
def exactSignals (f : Fmt) (x y : FpWord f) (domErr : Bool) : Signals := ⟨domErr, inexact f x y, false⟩

/-- RTSI and RTSIC: `edom = nv = ovf`, `nx` never (R111, R112). -/
def nativeSignals (ovf : Bool) : Signals := ⟨ovf, false, ovf⟩

/-- `ENV` takes a response's signal bits by inclusive OR and keeps `FRM` (R17, R120). -/
def Env.accumulate {f : Fmt} (e : Env) (r : Response f) : Env :=
  { frm := e.frm, nv := e.nv || r.nv, nx := e.nx || r.nx, edom := e.edom || r.edom }

end Sys2Proof.Machine
end

