-- ==== Sys2Proof/Machine/Ops.lean ====
section
/-! DEFINITION. The named operations on the machine: acceptance and response (`20_memory.md` R31,
R32), the responses a command can give (`60_exceptions.md` R120), the host's accesses to `ENV`
(`10_state.md` R16), and reset (`70_reset_and_hazards.md` R140).  There is no exception to take and
none to return from (`60_exceptions.md` R129, R130). -/

namespace Sys2Proof.Machine

/-! ### Acceptance (R31) -/

/-- `cmd_ready`: no command is in flight (R30, R32). -/
def Block.cmdReady {f : Fmt} (b : Block f) : Bool := !b.busy

/-- Sample `cmd`, `x_in` and `frm` at one instant, and be busy until the response. -/
def Block.accept {f : Fmt} (b : Block f) (cmd : CmdWord) (x : FpWord f) : Block f :=
  { b with busy := true, latch := ⟨cmd, x, b.env.frm⟩ }

/-- `x` of the command in flight (`00_scope.md` R7). -/
abbrev State.x (s : State) : FpWord s.fmt := s.block.latch.x

/-- `frm_s` of the command in flight (`00_scope.md` R7). -/
abbrev State.frmS (s : State) : BitVec 3 := s.block.latch.frmS

/-! ### Responses (R30, R32, R120) -/

/-- The response of a command with a floating result: `i_out` is zero. -/
def floatResponse (f : Fmt) (y : FpWord f) (g : Signals) : Response f :=
  { err := 0#2, yOut := y, iOut := 0#64, nv := g.nv, nx := g.nx, edom := g.edom }

/-- The response of a command with an integer result: `y_out` is zero and `i_out = sext_64(i)`
(`44_native_conversion.md` R113). -/
def intResponse (f : Fmt) (i : Int) (g : Signals) : Response f :=
  { err := 0#2, yOut := 0#f.N, iOut := BitVec.ofInt 64 i, nv := g.nv, nx := g.nx, edom := g.edom }

/-- An error response: a code, zero outputs, no signal (R125 to R127). -/
def errResponse (f : Fmt) (code : BitVec 2) : Response f :=
  { err := code, yOut := 0#f.N, iOut := 0#64, nv := false, nx := false, edom := false }

/-- The `err` code the hardware answers where the model faults (R125). -/
def Fault.errCode : Fault → BitVec 2
  | .illegalCmd => 1#2
  | .envModeUndefined => 2#2

/-- A response is delivered: its ports, the accumulation into `ENV` at that same instant (R17), and
the block ready again (R32). -/
def Block.respond {f : Fmt} (b : Block f) (r : Response f) : Block f :=
  { b with rsp := some r, env := b.env.accumulate r, busy := false }

/-- A command ends with a response. -/
def State.answer (s : State) (r : Response s.fmt) : Host.Outcome State Fault Refusal :=
  .next { s with block := s.block.respond r }

/-- A command that samples the ambient mode: the undefined mode fails before anything else (R128),
and any of the five is handed on (`42_mode_rounding.md` R95). -/
def State.withAmbientMode (s : State) (answer : Mode → Host.Outcome State Fault Refusal) :
    Host.Outcome State Fault Refusal :=
  match Mode.ofCode s.frmS with
  | some m => answer m
  | none => .fault .envModeUndefined

/-! ### The host's accesses (R16) -/

/-- `HREAD(n)`: the register zero-extended; a number above 2 reads 0. -/
def Env.hread (e : Env) (n : Nat) : HostWord :=
  match n with
  | 0 => e.frm.setWidth 32
  | 1 => (BitVec.ofBool e.nx ++ BitVec.ofBool e.nv).setWidth 32
  | 2 => (BitVec.ofBool e.edom).setWidth 32
  | _ => 0#32

/-- `HWRITE(n, v)`: bits outside the register are ignored, and so is a number above 2. -/
def Env.hwrite (e : Env) (n : Nat) (v : HostWord) : Env :=
  match n with
  | 0 => { e with frm := v.extractLsb' 0 3 }
  | 1 => { e with nv := v.getLsbD 0, nx := v.getLsbD 1 }
  | 2 => { e with edom := v.getLsbD 0 }
  | _ => e

/-- One host access, atomic on one whole register (R16, `20_memory.md` R35). -/
def Block.access {f : Fmt} (b : Block f) : HostAccess → Block f
  | .hread n => { b with hostData := some (b.env.hread n) }
  | .hwrite n v => { b with env := b.env.hwrite n v }

/-- A host access that would collide with the accumulation of a response in the same cycle: a write
to FFLAGS or FERRNO (`20_memory.md` R37 clause 4, `70_reset_and_hazards.md` R142 H3). -/
def HostAccess.collides : HostAccess → Bool
  | .hread _ => false
  | .hwrite n _ => n == 1 || n == 2

/-! ### Reset and the ports between events (R140) -/

/-- A cycle with `rst_n` = 0: `ENV` at its reset values, a command in flight abandoned without a
response and without accumulation, the latches empty again, no state kept.  The host, which is not the
block's, goes on with its events. -/
def Block.pullReset {f : Fmt} (b : Block f) : Block f := { Block.reset f with host := b.host }

/-- `rsp_valid` is 1 for one cycle only (R32): the ports of the step before are gone, and so is the
value an HREAD returned. -/
def Block.clearPorts {f : Fmt} (b : Block f) : Block f := { b with rsp := none, hostData := none }

end Sys2Proof.Machine
end

