-- ==== Sys2Proof/Machine/ModeRound.lean ====
section
/-! DEFINITION. The `mode_parameterized_rounder`: RNDM and RNDC (`42_mode_rounding.md` R90 to R95). -/

namespace Sys2Proof.Machine

/-- `small(s, e, m, mode)`: the result for a non-zero value of magnitude below one (R92). -/
def roundSmall (f : Fmt) (s : BitVec 1) (e : Int) (m : BitVec f.F) (mode : Mode) : FpWord f :=
  match mode with
  | .dn => if s = 1#1 then one f 1#1 else zero f 0#1
  | .up => if s = 1#1 then zero f 1#1 else one f 0#1
  | .tz => zero f s
  | .na => if e = -1 then one f s else zero f s
  | .ne => if e = -1 ∧ m.toNat ≠ 0 then one f s else zero f s

/-- The tie under NE (R94): the literal ±2.0 when `trim` is the whole mantissa, else the neighbour
whose units bit, mantissa bit `trim`, is even.  The bit is selected only at an index below F, where it
is a mantissa bit (`93_implementation_defined.md` U2).  R94 asks this only for `trim = F - e`, where
`trim` = F exactly when `e` = 0.  DESIGN CHOICE (log entry 12, unsafe): off that domain, `e` ≠ 0 with
`trim` ≥ F, the answer is the literal as well; `rndm` never asks it there. -/
def tieToEven (f : Fmt) (s : BitVec 1) (e : Int) (t up : FpWord f) (trim : Nat) : FpWord f :=
  if e = 0 ∨ f.F ≤ trim then two f s
  else if (mant f t).getLsbD trim then up
  else t

/-- `large(s, e, t, up, r, h, trim, mode)`: the result for a non-integral value of magnitude at least
one (R93). -/
def roundLarge (f : Fmt) (s : BitVec 1) (e : Int) (t up : FpWord f) (r h trim : Nat) (mode : Mode) :
    FpWord f :=
  match mode with
  | .dn => if s = 1#1 then up else t
  | .up => if s = 1#1 then t else up
  | .tz => t
  | .na => if h ≤ r then up else t
  | .ne => if h < r then up else if r < h then t else tieToEven f s e t up trim

/-- `RNDM(x, mode)` (R91). -/
def rndm (f : Fmt) (x : FpWord f) (mode : Mode) : FpWord f :=
  if isInfOrNan f x || isZero f x then x
  else if (f.F : Int) ≤ exponent f x then x
  else if exponent f x ≤ -1 then roundSmall f (sign f x) (exponent f x) (mant f x) mode
  else if truncBits f x == x then x
  else
    roundLarge f (sign f x) (exponent f x) (truncBits f x)
      (incAway f (truncBits f x) (trimOf f x)) (rem f x) (half f x) (trimOf f x) mode

/-- RNDM mode, x (R91). -/
def execRndm (m : Mode) (s : State) : Host.Outcome State Fault Refusal :=
  s.answer (floatResponse s.fmt (rndm s.fmt s.x m) Signals.none)

/-- RNDC x (R95): RNDM under the ambient mode sampled at acceptance. -/
def execRndc (s : State) : Host.Outcome State Fault Refusal :=
  s.withAmbientMode fun m => s.answer (floatResponse s.fmt (rndm s.fmt s.x m) Signals.none)

end Sys2Proof.Machine
end

