-- ==== Sys2Proof/Machine/BoundedConv.lean ====
section
/-! DEFINITION. The `bounded_int_converter`: FROMFP, UFROMFP, FROMFPX, UFROMFPX
(`43_bounded_conversion.md` R100 to R108). -/

namespace Sys2Proof.Machine

/-- `in_signed_range(r, w)`: `-2^(w-1) ≤ r ≤ 2^(w-1) - 1`, from the exponent of the integral `r`
(R102).  The upper bound is never formed (`90_conflicts.md` C4). -/
def inSignedRange (f : Fmt) (r : FpWord f) (w : Nat) : Bool :=
  if isZero f r then true
  else if isNeg f r then
    decide (exponent f r < (w : Int) - 1) ||
      (decide (exponent f r = (w : Int) - 1) && (mant f r).toNat == 0)
  else decide (exponent f r < (w : Int) - 1)

/-- `in_unsigned_range(r, w)`: `0 ≤ r ≤ 2^w - 1`; −0 is in (R103). -/
def inUnsignedRange (f : Fmt) (r : FpWord f) (w : Nat) : Bool :=
  if isZero f r then true
  else if isNeg f r then false
  else decide (exponent f r < (w : Int))

/-- `BOUNDED(x, mode, w, unsigned)`: the result and `dom_err` (R101). -/
def bounded (f : Fmt) (x : FpWord f) (mode : Mode) (w : Nat) (unsigned : Bool) : FpWord f × Bool :=
  if w = 0 then (qnan f, true)
  else if isInfOrNan f x then (qnan f, true)
  else if (if unsigned then inUnsignedRange f (rndm f x mode) w else inSignedRange f (rndm f x mode) w)
  then (rndm f x mode, false)
  else (qnan f, true)

/-- The response of FROMFP and UFROMFP (R104, R105). -/
def boundedResponse (f : Fmt) (x : FpWord f) (m : Mode) (w : Nat) (unsigned : Bool) : Response f :=
  floatResponse f (bounded f x m w unsigned).1 (boundedSignals (bounded f x m w unsigned).2)

/-- The response of FROMFPX and UFROMFPX (R106, R107). -/
def exactResponse (f : Fmt) (x : FpWord f) (m : Mode) (w : Nat) (unsigned : Bool) : Response f :=
  floatResponse f (bounded f x m w unsigned).1
    (exactSignals f x (bounded f x m w unsigned).1 (bounded f x m w unsigned).2)

/-- FROMFP mode, w, x (R104). -/
def execFromfp (m : Mode) (w : Nat) (s : State) : Host.Outcome State Fault Refusal :=
  s.answer (boundedResponse s.fmt s.x m w false)

/-- UFROMFP mode, w, x (R105). -/
def execUfromfp (m : Mode) (w : Nat) (s : State) : Host.Outcome State Fault Refusal :=
  s.answer (boundedResponse s.fmt s.x m w true)

/-- FROMFPX mode, w, x (R106). -/
def execFromfpx (m : Mode) (w : Nat) (s : State) : Host.Outcome State Fault Refusal :=
  s.answer (exactResponse s.fmt s.x m w false)

/-- UFROMFPX mode, w, x (R107). -/
def execUfromfpx (m : Mode) (w : Nat) (s : State) : Host.Outcome State Fault Refusal :=
  s.answer (exactResponse s.fmt s.x m w true)

end Sys2Proof.Machine
end

