-- ==== Sys2Proof/Machine/FixedRound.lean ====
section
/-! DEFINITION. The `fp_rounder` selector: TRUNC, CEIL, FLOOR, ROUND (`41_fixed_rule_rounding.md` R80
to R84).  Each result function is the rule's pseudocode line by line; none raises a signal. -/

namespace Sys2Proof.Machine

/-- `TRUNC(x)` (R81). -/
def trunc (f : Fmt) (x : FpWord f) : FpWord f :=
  if isInfOrNan f x then x
  else if (f.F : Int) ≤ exponent f x then x
  else if exponent f x ≤ -1 then zero f (sign f x)
  else truncBits f x

/-- `CEIL(x)` (R82). -/
def ceil (f : Fmt) (x : FpWord f) : FpWord f :=
  if isInfOrNan f x || isZero f x then x
  else if (f.F : Int) ≤ exponent f x then x
  else if exponent f x ≤ -1 then (if isNeg f x then zero f 1#1 else one f 0#1)
  else if truncBits f x == x then x
  else if isNeg f x then truncBits f x
  else incAway f (truncBits f x) (trimOf f x)

/-- `FLOOR(x)` (R83): `neg(CEIL(neg(x)))` when the sign bit is set, whatever the class. -/
def floor (f : Fmt) (x : FpWord f) : FpWord f :=
  if isNeg f x then neg f (ceil f (neg f x)) else trunc f x

/-- `ROUND(x)` (R84): ties away from zero, by the half bit `mant(x)[trim-1]`. -/
def round (f : Fmt) (x : FpWord f) : FpWord f :=
  if isInfOrNan f x || isZero f x then x
  else if (f.F : Int) ≤ exponent f x then x
  else if exponent f x = -1 then one f (sign f x)
  else if exponent f x ≤ -2 then zero f (sign f x)
  else if (mant f x).getLsbD (trimOf f x - 1) then incAway f (truncBits f x) (trimOf f x)
  else truncBits f x

/-- TRUNC x (R81). -/
def execTrunc (s : State) : Host.Outcome State Fault Refusal :=
  s.answer (floatResponse s.fmt (trunc s.fmt s.x) Signals.none)

/-- CEIL x (R82). -/
def execCeil (s : State) : Host.Outcome State Fault Refusal :=
  s.answer (floatResponse s.fmt (ceil s.fmt s.x) Signals.none)

/-- FLOOR x (R83). -/
def execFloor (s : State) : Host.Outcome State Fault Refusal :=
  s.answer (floatResponse s.fmt (floor s.fmt s.x) Signals.none)

/-- ROUND x (R84). -/
def execRound (s : State) : Host.Outcome State Fault Refusal :=
  s.answer (floatResponse s.fmt (round s.fmt s.x) Signals.none)

end Sys2Proof.Machine
end

