-- ==== Sys2Proof/Machine/NativeConv.lean ====
section
/-! DEFINITION. The `native_int_converter`: RTSI and RTSIC (`44_native_conversion.md` R110 to R113). -/

namespace Sys2Proof.Machine

/-- `INT_MIN(IW) = -2^(IW-1)` (`40_fp_primitives.md` R73). -/
def intMin (iw : Nat) : Int := -(2 ^ (iw - 1))

/-- `INT_MAX(IW) = 2^(IW-1) - 1` (`40_fp_primitives.md` R73). -/
def intMax (iw : Nat) : Int := 2 ^ (iw - 1) - 1

/-- The bound an overflow is clamped to: the sign bit decides, for every class (R110). -/
def clampBound (f : Fmt) (r : FpWord f) (iw : Nat) : Int := if isNeg f r then intMin iw else intMax iw

/-- `NARROW(r, IW)`: the integer and `ovf` (R110). -/
def narrow (f : Fmt) (r : FpWord f) (iw : Nat) : Int × Bool :=
  if isInfOrNan f r then (clampBound f r iw, true)
  else if (iw : Int) - 1 < exponent f r then (clampBound f r iw, true)
  else if exponent f r = (iw : Int) - 1 ∧ (isNeg f r = false ∨ (mant f r).toNat ≠ 0) then
    (clampBound f r iw, true)
  else (intOf f r, false)

/-- The response of a rounded value `r` narrowed (R111, R112). -/
def nativeResponse (f : Fmt) (r : FpWord f) (iw : IntWidth) : Response f :=
  intResponse f (narrow f r iw.bits).1 (nativeSignals (narrow f r iw.bits).2)

/-- RTSI.iw x: ROUND, then narrow (R111). -/
def execRtsi (iw : IntWidth) (s : State) : Host.Outcome State Fault Refusal :=
  s.answer (nativeResponse s.fmt (round s.fmt s.x) iw)

/-- RTSIC.iw x: RNDM under the ambient mode sampled at acceptance, then narrow (R112). -/
def execRtsic (iw : IntWidth) (s : State) : Host.Outcome State Fault Refusal :=
  s.withAmbientMode fun m => s.answer (nativeResponse s.fmt (rndm s.fmt s.x m) iw)

end Sys2Proof.Machine
end

