-- ==== Sys2Proof/Machine/Dispatch.lean ====
section
/-! DEFINITION. One arm per command: the command in flight is answered (`60_exceptions.md` R120). -/

namespace Sys2Proof.Machine

/-- Answer the command in flight, which decoded to `i` (R120). -/
def exec (i : Instr) (s : State) : Host.Outcome State Fault Refusal :=
  match i with
  | .trunc => Sys2Proof.Machine.execTrunc s
  | .ceil => Sys2Proof.Machine.execCeil s
  | .floor => Sys2Proof.Machine.execFloor s
  | .round => Sys2Proof.Machine.execRound s
  | .rndm m => Sys2Proof.Machine.execRndm m s
  | .rndc => Sys2Proof.Machine.execRndc s
  | .fromfp m w => Sys2Proof.Machine.execFromfp m w s
  | .ufromfp m w => Sys2Proof.Machine.execUfromfp m w s
  | .fromfpx m w => Sys2Proof.Machine.execFromfpx m w s
  | .ufromfpx m w => Sys2Proof.Machine.execUfromfpx m w s
  | .rtsi iw => Sys2Proof.Machine.execRtsi iw s
  | .rtsic iw => Sys2Proof.Machine.execRtsic iw s

end Sys2Proof.Machine
end

