-- ==== Sys2Proof/Machine/Events.lean ====
section
/-! DEFINITION. What each event of the host does (`20_memory.md` R31, R32, R37; `70_reset_and_hazards.md`
R140, R142). -/

namespace Sys2Proof.Machine

/-- The command in flight is answered: its word decodes to an instruction that runs, or the word is
illegal (`60_exceptions.md` R120, R126). -/
def answerInFlight (s : State) : Host.Outcome State Fault Refusal :=
  match decode s.block.latch.cmd with
  | .ok i => exec i s
  | .error _ => .fault .illegalCmd

/-- A command is presented and answered in one event.  While another is in flight it is not accepted
(R32, R142 H7). -/
def runCommand (s : State) (cmd : CmdWord) (x : FpWord s.fmt) : Host.Outcome State Fault Refusal :=
  if s.block.cmdReady then answerInFlight { s with block := s.block.accept cmd x } else .next s

/-- A command is presented and, if none is in flight, accepted; its response comes later (R31). -/
def acceptCommand (s : State) (cmd : CmdWord) (x : FpWord s.fmt) : Host.Outcome State Fault Refusal :=
  if s.block.cmdReady then .next { s with block := s.block.accept cmd x } else .next s

/-- A host access by itself (R16). -/
def hostAccess (s : State) (a : HostAccess) : Host.Outcome State Fault Refusal :=
  .next { s with block := s.block.access a }

/-- The response cycle.  A host access in it is made on `ENV` as it is before the accumulation: an
HREAD returns that, a write of FRM does not reach the command in flight, and a write to FFLAGS or
FERRNO collides (R142 H3, `93_implementation_defined.md` U6).  With no command in flight there is no
response, and the access is an ordinary one. -/
def respondCycle (s : State) (a : Option HostAccess) : Host.Outcome State Fault Refusal :=
  match s.block.busy, a with
  | true, none => answerInFlight s
  | true, some a =>
    if a.collides then .refused .envWriteCollision
    else answerInFlight { s with block := s.block.access a }
  | false, none => .next s
  | false, some a => hostAccess s a

/-- The next event of the host, which the state no longer lists. -/
def runEvent (s : State) (e : HostEvent s.fmt) : Host.Outcome State Fault Refusal :=
  match e with
  | .access a => hostAccess s a
  | .command cmd x => runCommand s cmd x
  | .accept cmd x => acceptCommand s cmd x
  | .respond a => respondCycle s a
  | .reset => .next { s with block := s.block.pullReset }

/-- Take the next event with the ports of the step before cleared (R32).  With no event left the host
does nothing more: a command still in flight is answered, as every accepted command is (R32, log entry
17), and a block with none is idle and goes on being so (`60_exceptions.md` R134). -/
def takeEvent (s : State) : Host.Outcome State Fault Refusal :=
  match s.block.host with
  | [] => respondCycle { s with block := s.block.clearPorts } none
  | e :: rest => runEvent { s with block := { s.block.clearPorts with host := rest } } e

/-- The host's next event is command word `cmd` with operand `x`, and the block is ready for it. -/
def Block.present {f : Fmt} (b : Block f) (cmd : CmdWord) (x : FpWord f) : Block f :=
  { b with busy := false, host := .command cmd x :: b.host }

end Sys2Proof.Machine
end

