-- ==== Sys2Proof/Machine/Step.lean ====
section
/-! DEFINITION. One step of the machine: the host's next event (`20_memory.md` R37,
`60_exceptions.md` R120). -/

namespace Sys2Proof.Machine

/-- One step. -/
def step (s : State) : Host.Outcome State Fault Refusal := takeEvent s

/-- `s` with the command word of opcode-table bits `w` as the host's next event, beside the operand
last sampled, and the block ready to accept it (log entry 3). -/
def State.withFetchWord (s : State) (nbits w : Nat) : State :=
  { s with block := s.block.present (BitVec.ofNat 32 (w % 2 ^ nbits)) s.block.latch.x }

end Sys2Proof.Machine
end

