-- ==== Sys2Proof/Machine/Transaction.lean ====
section
/-! DEFINITION. One command transaction as the hardware makes it, error responses included: the total
function of `60_exceptions.md` R120.  The machine's step stops where this answers `err` ≠ 0 (log
entry 4); an obligation says that the two agree. -/

namespace Sys2Proof.Machine

/-- The `case d of` of R120: the response of a decoded command, or `none` where RNDC or RTSIC samples
an undefined mode. -/
def operation (f : Fmt) (i : Instr) (x : FpWord f) (frmS : BitVec 3) : Option (Response f) :=
  match i with
  | .trunc => some (floatResponse f (trunc f x) Signals.none)
  | .ceil => some (floatResponse f (ceil f x) Signals.none)
  | .floor => some (floatResponse f (floor f x) Signals.none)
  | .round => some (floatResponse f (round f x) Signals.none)
  | .rndm m => some (floatResponse f (rndm f x m) Signals.none)
  | .rndc => (Mode.ofCode frmS).map fun m => floatResponse f (rndm f x m) Signals.none
  | .fromfp m w => some (boundedResponse f x m w false)
  | .ufromfp m w => some (boundedResponse f x m w true)
  | .fromfpx m w => some (exactResponse f x m w false)
  | .ufromfpx m w => some (exactResponse f x m w true)
  | .rtsi iw => some (nativeResponse f (round f x) iw)
  | .rtsic iw => (Mode.ofCode frmS).map fun m => nativeResponse f (rndm f x m) iw

/-- `step(cmd, x, ENV) = (rsp, ENV')` of R120. -/
def transaction (f : Fmt) (cmd : CmdWord) (x : FpWord f) (env : Env) : Response f × Env :=
  match decode cmd with
  | .error _ => (errResponse f Fault.illegalCmd.errCode, env)
  | .ok i =>
    match operation f i x env.frm with
    | none => (errResponse f Fault.envModeUndefined.errCode, env)
    | some r => (r, env.accumulate r)

end Sys2Proof.Machine
end

