-- ==== Sys2Proof/Machine/Value.lean ====
section
/-! DEFINITION. What the bit patterns mean: the value function (`40_fp_primitives.md` R65) and the
mathematical rounding function (R74).  Specification devices: the hardware never computes them and no
meaning of a command reads them; the statements say with them what the commands give (`00_scope.md`
R8). -/

namespace Sys2Proof.Machine

/-- `val(x)` of a finite value (R65).  For infinities and NaNs it means nothing. -/
def val (f : Fmt) (x : FpWord f) : ℚ :=
  if 1 ≤ (bexp f x).toNat then
    (-1) ^ (sign f x).toNat * (2 : ℚ) ^ (((bexp f x).toNat : ℤ) - (f.bias : ℤ)) *
      (1 + ((mant f x).toNat : ℚ) / 2 ^ f.F)
  else
    (-1) ^ (sign f x).toNat * (2 : ℚ) ^ (1 - (f.bias : ℤ)) * (((mant f x).toNat : ℚ) / 2 ^ f.F)

/-- The finite value is an integer. -/
def Integral (f : Fmt) (x : FpWord f) : Prop := ∃ n : ℤ, val f x = (n : ℚ)

/-- The integer nearest `v`, a tie decided by `tieUp` (R74). -/
def nearest (v : ℚ) (tieUp : Prop) [Decidable tieUp] : ℤ :=
  if v - (⌊v⌋ : ℚ) < 1 / 2 then ⌊v⌋
  else if 1 / 2 < v - (⌊v⌋ : ℚ) then ⌈v⌉
  else if tieUp then ⌈v⌉
  else ⌊v⌋

/-- `round_math(v, m)` (R74). -/
def roundMath (v : ℚ) (m : Mode) : ℤ :=
  if v.den = 1 then v.num
  else
    match m with
    | .dn => ⌊v⌋
    | .up => ⌈v⌉
    | .tz => if 0 < v then ⌊v⌋ else ⌈v⌉
    | .na => nearest v (0 < v)
    | .ne => nearest v (⌊v⌋ % 2 ≠ 0)

end Sys2Proof.Machine
end

