-- ==== Sys2Proof/Safety.lean ====
section
/-! DEFINITION. The terms the statements use: what a response leaves, what a correct result is, the
invariant every step re-establishes, and the host that keeps the spec's restrictions
(`70_reset_and_hazards.md` R142), whose run never stops. -/

namespace Sys2Proof.Machine

/-! ### What a response leaves -/

/-- The block after a response `r`: its ports, the sticky bits with `r`'s signals ORed in
(`10_state.md` R17), ready again; `FRM`, the latches, the HREAD value and the host's events as before.
Written out here, field by field, so that a statement made with it says the whole frame. -/
def afterResponse {f : Fmt} (b : Block f) (r : Response f) : Block f :=
  { env :=
      { frm := b.env.frm, nv := b.env.nv || r.nv, nx := b.env.nx || r.nx, edom := b.env.edom || r.edom }
    busy := false
    latch := b.latch
    rsp := some r
    hostData := b.hostData
    host := b.host }

/-- A response that carries a floating result (`20_memory.md` R30, `err` = 0, `i_out` = 0). -/
def floatRsp (f : Fmt) (y : FpWord f) (nv nx : Bool) : Response f := ⟨0#2, y, 0#64, nv, nx, false⟩

/-- A response that carries an integer result (R30, `err` = 0, `y_out` = 0, `nx` = 0, `edom` = `nv`). -/
def intRsp (f : Fmt) (i : BitVec 64) (ovf : Bool) : Response f := ⟨0#2, 0#f.N, i, ovf, false, ovf⟩

/-! ### Correct results -/

/-- `y` is `x` correctly rounded under `m`: for a finite `x` a finite integer of the right value with
the sign bit of `x`; an infinity or a NaN bit for bit (`41_fixed_rule_rounding.md` R85,
`42_mode_rounding.md` R96). -/
def RoundsTo (f : Fmt) (m : Mode) (x y : FpWord f) : Prop :=
  (isFinite f x = true →
    isFinite f y = true ∧ val f y = (roundMath (val f x) m : ℚ) ∧ sign f y = sign f x) ∧
  (isFinite f x = false → y = x)

/-- The rounded value of `x` lies in the target domain: signed `[-2^(w-1), 2^(w-1) - 1]` or unsigned
`[0, 2^w - 1]`; no value does for `w` = 0, nor an infinity or a NaN (`43_bounded_conversion.md` R109). -/
def InDomain (f : Fmt) (m : Mode) (w : Nat) (unsigned : Bool) (x : FpWord f) : Prop :=
  1 ≤ w ∧ isFinite f x = true ∧
    (if unsigned then 0 ≤ roundMath (val f x) m ∧ roundMath (val f x) m ≤ 2 ^ w - 1
     else -(2 ^ (w - 1)) ≤ roundMath (val f x) m ∧ roundMath (val f x) m ≤ 2 ^ (w - 1) - 1)

/-- `y` and `nv` are what a bounded conversion of `x` gives: the rounded value and no signal, or `QNAN`
and invalid-operation (R109). -/
def ConvertsTo (f : Fmt) (m : Mode) (w : Nat) (unsigned : Bool) (x y : FpWord f) (nv : Bool) : Prop :=
  (InDomain f m w unsigned x → nv = false ∧ RoundsTo f m x y) ∧
  (¬InDomain f m w unsigned x → nv = true ∧ y = qnan f)

/-- `i` (on `i_out`) and `ovf` are what a native conversion of `x` gives: the rounded integer where the
type holds it, else the bound on the side of `x`, by its sign bit (`44_native_conversion.md` R110,
R113, R114). -/
def NarrowsTo (f : Fmt) (m : Mode) (iw : Nat) (x : FpWord f) (i : BitVec 64) (ovf : Bool) : Prop :=
  let v := roundMath (val f x) m
  let fits := isFinite f x = true ∧ -(2 ^ (iw - 1)) ≤ v ∧ v ≤ 2 ^ (iw - 1) - 1
  (fits → ovf = false ∧ i.toInt = v) ∧
  (¬fits → ovf = true ∧ i.toInt = if sign f x = 1#1 then -(2 ^ (iw - 1)) else 2 ^ (iw - 1) - 1)

/-- The event is the host's write of `v` to `ENV` register `n`, by itself or in a response cycle. -/
def HostWrites {f : Fmt} (ev : Option (HostEvent f)) (n : Nat) (v : HostWord) : Prop :=
  ev = some (.access (.hwrite n v)) ∨ ev = some (.respond (some (.hwrite n v)))

/-- The event presents a command to a block that may accept it. -/
def PresentsCommand {f : Fmt} (ev : Option (HostEvent f)) : Prop :=
  ∃ w x, ev = some (.command w x) ∨ ev = some (.accept w x)

/-! ### The invariant -/

/-- What a response on the ports always satisfies: no error code, the block ready, at most one of `nv`
and `nx`, `edom` only with `nv` (`60_exceptions.md` R124, R128), every raised signal in the sticky
bits (`10_state.md` R17), one result port zero (`20_memory.md` R30), and `QNAN` where a floating result
is invalid (R122). -/
def ResponseInv {f : Fmt} (b : Block f) (r : Response f) : Prop :=
  r.err = 0#2 ∧ b.busy = false ∧
  (r.nv = true → r.nx = false) ∧ (r.edom = true → r.nv = true) ∧
  (r.nv = true → b.env.nv = true) ∧ (r.nx = true → b.env.nx = true) ∧
  (r.edom = true → b.env.edom = true) ∧
  (r.yOut = 0#f.N ∨ r.iOut = 0#64) ∧
  (r.nv = true → r.edom = false → r.yOut = qnan f)

/-- The invariant: a format the block may be built for, and a coherent response if there is one. -/
def State.Inv (s : State) : Prop :=
  s.fmt.WF ∧ ∀ r, s.block.rsp = some r → ResponseInv s.block r

/-! ### The host that keeps the restrictions -/

/-- H1 and H2 for one command: a legal word, and a mode where the command samples one (R142). -/
def commandOk (cmd : CmdWord) (frm : BitVec 3) : Bool :=
  match decode cmd with
  | .ok i => !i.readsAmbientMode || decide (frm.toNat ≤ 4)
  | .error _ => false

/-- `ENV.FRM` after a host access. -/
def HostAccess.frmAfter (a : HostAccess) (frm : BitVec 3) : BitVec 3 :=
  match a with
  | .hread _ => frm
  | .hwrite 0 v => v.extractLsb' 0 3
  | .hwrite _ _ => frm

/-- The host's events keep H1, H2, H3 and H7 of R142, from `ENV.FRM` = `frm` with a command in flight
or not.  A list may end with one in flight: the step after its end answers it (log entry 17). -/
def disciplined {f : Fmt} (frm : BitVec 3) (busy : Bool) : List (HostEvent f) → Bool
  | [] => true
  | .access a :: es => !busy && disciplined (a.frmAfter frm) false es
  | .command cmd _ :: es => !busy && commandOk cmd frm && disciplined frm false es
  | .accept cmd _ :: es => !busy && commandOk cmd frm && disciplined frm true es
  | .respond none :: es => busy && disciplined frm false es
  | .respond (some _) :: _ => false
  | .reset :: es => disciplined Config.resetFrm false es

/-- A state whose host keeps the restrictions, the command in flight included. -/
def State.Disciplined (s : State) : Prop :=
  disciplined s.block.env.frm s.block.busy s.block.host = true ∧
  (s.block.busy = true → commandOk s.block.latch.cmd s.block.latch.frmS = true)

/-- The run of `n` steps from `s` does not stop: a safe run of that length. -/
def State.RunsFor (s : State) (n : Nat) : Prop := ∃ t, Host.Core.run Sys2Proof.core n s = .next t

end Sys2Proof.Machine
end

