-- ==== Sys2Proof/Certificates/Slice0/Obligations.lean ====
section
/-! DEFINITION. The statements for the provers.  Each follows the numbered rule of spec/ its docstring
names.  A format is universally quantified wherever a statement reads one. -/

open Sys2Proof Sys2Proof.Machine

/-! ### Command words -/

/-- R53, R46, R48: a command encoded and decoded is the command again. -/
def Obligations.EncodedCommandDecodesBack : Prop :=
  ∀ i : Instr, i.wellFormed = true → decode (encode i) = .ok i

/-- R53: a legal word decodes to a well-formed command, and encoding that gives the word back. -/
def Obligations.LegalWordReencodesToItself : Prop :=
  ∀ (w : CmdWord) (i : Instr), decode w = .ok i → i.wellFormed = true ∧ encode i = w

/-- R54: the illegal words, and what becomes of one: its transaction answers `err` = 1 and changes
nothing, and it is accepted like any other word.  That the machine's step on it is the fault
`illegalCmd` is not R54's word but the model's reading of R126 (log entry 4). -/
def Obligations.IllegalWordsAreExactlyThese : Prop :=
  (∀ w : CmdWord,
    (∃ e, decode w = .error e) ↔
      ((opField w).toNat ∈ [6, 7, 14, 15] ∨ rsv7Field w ≠ 0#1 ∨ rsv10Field w ≠ 0#6 ∨
        ((opField w).toNat ∉ [4, 8, 9, 10, 11] ∧ modeField w ≠ 0#3) ∨
        ((opField w).toNat ∉ [12, 13] ∧ iselField w ≠ 0#2) ∨
        ((opField w).toNat ∉ [8, 9, 10, 11] ∧ widthField w ≠ 0#16) ∨
        ((opField w).toNat ∈ [4, 8, 9, 10, 11] ∧ 4 < (modeField w).toNat))) ∧
  (∀ (f : Fmt) (w : CmdWord) (e : Illegal) (x : FpWord f) (env : Env), decode w = .error e →
    transaction f w x env = (⟨1#2, 0#f.N, 0#64, false, false, false⟩, env)) ∧
  (∀ (f : Fmt) (b : Block f) (w : CmdWord) (e : Illegal) (x : FpWord f) (rest : List (HostEvent f)),
    decode w = .error e → b.busy = false →
      (b.host = .command w x :: rest → step ⟨f, b⟩ = .fault .illegalCmd) ∧
      (b.host = .accept w x :: rest →
        step ⟨f, b⟩ = .next ⟨f, ⟨b.env, true, ⟨w, x, b.env.frm⟩, none, none, rest⟩⟩))

/-- R48: a word is legal exactly when it selects a row of the table, the row of its command, and it
selects no other. -/
def Obligations.LegalWordSelectsOneTableRow : Prop :=
  ∀ w : CmdWord,
    (∀ i, decode w = .ok i →
      ∃ r ∈ opTable, r.selects w = true ∧ r.mnemonic = i.mnemonic ∧ r.fmt = i.cmdFormat) ∧
    (∀ r ∈ opTable, r.selects w = true → ∃ i, decode w = .ok i ∧ i.mnemonic = r.mnemonic) ∧
    (∀ r ∈ opTable, ∀ r' ∈ opTable, r.selects w = true → r'.selects w = true → r = r')

/-- R49, R47: the op field of a command's word names its sub-block in bits 3:2, and every field its
format does not use is zero. -/
def Obligations.OpFieldNamesTheSubBlock : Prop :=
  ∀ i : Instr,
    opField (encode i) = i.opcode ∧ (opField (encode i)).extractLsb' 2 2 = i.subBlock.code ∧
    rsv7Field (encode i) = 0#1 ∧ rsv10Field (encode i) = 0#6 ∧
    (i.cmdFormat = .c0 ∨ i.cmdFormat = .ci → modeField (encode i) = 0#3) ∧
    (i.cmdFormat ≠ .ci → iselField (encode i) = 0#2) ∧
    (i.cmdFormat ≠ .cw → widthField (encode i) = 0#16)

/-- `95_test_vectors.md` 2.8, R48, R50 to R52: sample words of every sub-block and of every reason to
be illegal. -/
def Obligations.SampleCommandWordsDecode : Prop :=
  decode 0x00000003#32 = .ok .round ∧ decode 0x00000044#32 = .ok (.rndm .na) ∧
  decode 0x00000005#32 = .ok .rndc ∧ decode 0x00080038#32 = .ok (.fromfp .ne 8) ∧
  decode 0xFFFF0048#32 = .ok (.fromfp .na 65535) ∧ decode 0x0001001B#32 = .ok (.ufromfpx .up 1) ∧
  decode 0x0000030C#32 = .ok (.rtsi .i64) ∧ decode 0x0000010D#32 = .ok (.rtsic .i16) ∧
  decode 0x00000006#32 = .error .reservedOp ∧ decode 0x00000054#32 = .error .badMode ∧
  decode 0x00000084#32 = .error .reservedBits ∧ decode 0x0000040C#32 = .error .reservedBits ∧
  decode 0x00010000#32 = .error .unusedField ∧ decode 0x0000001C#32 = .error .unusedField

/-! ### The floating operand -/

/-- R62. -/
def Obligations.FieldsRoundTrip : Prop :=
  ∀ f : Fmt,
    (∀ x : FpWord f, pack f (sign f x) (bexp f x) (mant f x) = x) ∧
    (∀ (s : BitVec 1) (be : BitVec f.E) (m : BitVec f.F),
      sign f (pack f s be m) = s ∧ bexp f (pack f s be m) = be ∧ mant f (pack f s be m) = m)

/-- R63: the conditions of the five classes, that exactly one holds, the derived predicates, and that
the sign bit takes no part. -/
def Obligations.ExactlyOneClassHolds : Prop :=
  ∀ (f : Fmt) (x : FpWord f), f.WF →
    (isZero f x = true ↔ (bexp f x).toNat = 0 ∧ (mant f x).toNat = 0) ∧
    (isSubnormal f x = true ↔ (bexp f x).toNat = 0 ∧ (mant f x).toNat ≠ 0) ∧
    (isNormal f x = true ↔ 1 ≤ (bexp f x).toNat ∧ (bexp f x).toNat ≤ 2 ^ f.E - 1 - 1) ∧
    (isInf f x = true ↔ (bexp f x).toNat = 2 ^ f.E - 1 ∧ (mant f x).toNat = 0) ∧
    (isNan f x = true ↔ (bexp f x).toNat = 2 ^ f.E - 1 ∧ (mant f x).toNat ≠ 0) ∧
    [isZero f x, isSubnormal f x, isNormal f x, isInf f x, isNan f x].count true = 1 ∧
    (isInfOrNan f x = true ↔ (bexp f x).toNat = 2 ^ f.E - 1) ∧ isFinite f x = !isInfOrNan f x ∧
    (∀ y : FpWord f, bexp f y = bexp f x → mant f y = mant f x →
      isZero f y = isZero f x ∧ isSubnormal f y = isSubnormal f x ∧ isNormal f y = isNormal f x ∧
        isInf f y = isInf f x ∧ isNan f y = isNan f x)

/-- R67. -/
def Obligations.NegationFlipsOnlyTheSign : Prop :=
  ∀ (f : Fmt) (x : FpWord f),
    sign f (neg f x) = ~~~(sign f x) ∧ bexp f (neg f x) = bexp f x ∧ mant f (neg f x) = mant f x ∧
    neg f (neg f x) = x ∧ (isFinite f x = true → val f (neg f x) = -val f x)

/-- R64: the range of `exponent`, and what it says of the magnitude. -/
def Obligations.ExponentBoundsTheMagnitude : Prop :=
  ∀ (f : Fmt) (x : FpWord f), f.WF →
    -(f.bias : ℤ) ≤ exponent f x ∧ exponent f x ≤ (f.emaxb : ℤ) - (f.bias : ℤ) ∧
    (isNormal f x = true →
      (2 : ℚ) ^ exponent f x ≤ |val f x| ∧ |val f x| < (2 : ℚ) ^ (exponent f x + 1)) ∧
    (isZero f x = true ∨ isSubnormal f x = true →
      exponent f x = -(f.bias : ℤ) ∧ |val f x| < (2 : ℚ) ^ (1 - (f.bias : ℤ)) ∧ |val f x| < 1 / 4)

/-- R72. -/
def Obligations.ExponentDecidesIntegrality : Prop :=
  ∀ (f : Fmt) (x : FpWord f), f.WF → isFinite f x = true →
    ((f.F : ℤ) ≤ exponent f x → Integral f x) ∧
    (isZero f x = false → exponent f x ≤ -1 → 0 < |val f x| ∧ |val f x| < 1 ∧ ¬Integral f x) ∧
    (exponent f x = -1 →
      1 / 2 ≤ |val f x| ∧ |val f x| < 1 ∧ (|val f x| = 1 / 2 ↔ (mant f x).toNat = 0)) ∧
    (exponent f x ≤ -2 → |val f x| < 1 / 2)

/-- R68: for `0 ≤ exponent(x) ≤ F-1`. -/
def Obligations.TruncationKeepsTheIntegerPart : Prop :=
  ∀ (f : Fmt) (x : FpWord f), f.WF → 0 ≤ exponent f x → exponent f x ≤ (f.F : ℤ) - 1 →
    (trimOf f x : ℤ) = (f.F : ℤ) - exponent f x ∧ rem f x < 2 ^ trimOf f x ∧
    sign f (truncBits f x) = sign f x ∧ bexp f (truncBits f x) = bexp f x ∧
    val f (truncBits f x) = (roundMath (val f x) .tz : ℚ) ∧
    |val f x| - |val f (truncBits f x)| = (rem f x : ℚ) / 2 ^ trimOf f x ∧
    (Integral f x ↔ rem f x = 0) ∧ (Integral f x ↔ truncBits f x = x)

/-- R69: the increment is the next integer away from zero, finite, of the same sign. -/
def Obligations.IncrementAddsOneUnit : Prop :=
  ∀ (f : Fmt) (x : FpWord f), f.WF → 0 ≤ exponent f x → exponent f x ≤ (f.F : ℤ) - 1 →
    let t := truncBits f x
    let up := incAway f t (trimOf f x)
    isFinite f up = true ∧ sign f up = sign f x ∧ |val f up| ≤ (2 : ℚ) ^ f.F ∧
    val f up = val f t + (if sign f x = 1#1 then -1 else 1)

/-- R70. -/
def Obligations.IntegerOfAnIntegralValue : Prop :=
  ∀ (f : Fmt) (y : FpWord f), f.WF → isFinite f y = true → Integral f y → (intOf f y : ℚ) = val f y

/-- R71: the bit-level equality the block uses is equality of values, and on non-negative values the
order of values is the order of magnitude fields. -/
def Obligations.NumericComparisonIsOfValues : Prop :=
  ∀ (f : Fmt) (a b : FpWord f), f.WF → isFinite f a = true → isFinite f b = true →
    (numEq f a b = true ↔ val f a = val f b) ∧
    (isZero f a = false → isZero f b = false → sign f a = sign f b → (val f a = val f b ↔ a = b)) ∧
    (sign f a = 0#1 → sign f b = 0#1 → (val f a < val f b ↔ (mag f a).toNat < (mag f b).toNat))

/-! ### Fixed-rule rounding -/

/-- R81, R80, R85: TRUNC completes in every state, with `x` rounded toward zero and nothing signalled. -/
def Obligations.TruncRoundsTowardZero : Prop :=
  ∀ (f : Fmt) (b : Block f), f.WF →
    ∃ y, exec .trunc ⟨f, b⟩ = .next ⟨f, afterResponse b (floatRsp f y false false)⟩ ∧
      RoundsTo f .tz b.latch.x y

/-- R82, R80, R85: CEIL. -/
def Obligations.CeilRoundsUp : Prop :=
  ∀ (f : Fmt) (b : Block f), f.WF →
    ∃ y, exec .ceil ⟨f, b⟩ = .next ⟨f, afterResponse b (floatRsp f y false false)⟩ ∧
      RoundsTo f .up b.latch.x y

/-- R83, R80, R85: FLOOR. -/
def Obligations.FloorRoundsDown : Prop :=
  ∀ (f : Fmt) (b : Block f), f.WF →
    ∃ y, exec .floor ⟨f, b⟩ = .next ⟨f, afterResponse b (floatRsp f y false false)⟩ ∧
      RoundsTo f .dn b.latch.x y

/-- R84, R80, R85: ROUND. -/
def Obligations.RoundRoundsTiesAway : Prop :=
  ∀ (f : Fmt) (b : Block f), f.WF →
    ∃ y, exec .round ⟨f, b⟩ = .next ⟨f, afterResponse b (floatRsp f y false false)⟩ ∧
      RoundsTo f .na b.latch.x y

/-- R85: the four commands are RNDM at a fixed mode, as patterns and as instructions, and round to the
mathematical value with the operand's sign. -/
def Obligations.FixedRulesEqualFixedModes : Prop :=
  (∀ (f : Fmt) (x : FpWord f), f.WF →
    (trunc f x = rndm f x .tz ∧ ceil f x = rndm f x .up ∧ floor f x = rndm f x .dn ∧
      round f x = rndm f x .na) ∧
    RoundsTo f .tz x (trunc f x) ∧ RoundsTo f .up x (ceil f x) ∧ RoundsTo f .dn x (floor f x) ∧
      RoundsTo f .na x (round f x)) ∧
  (∀ s : State, s.fmt.WF →
    exec .trunc s = exec (.rndm .tz) s ∧ exec .ceil s = exec (.rndm .up) s ∧
      exec .floor s = exec (.rndm .dn) s ∧ exec .round s = exec (.rndm .na) s)

/-- R86. -/
def Obligations.FixedRulesEncloseAndRepeat : Prop :=
  ∀ (f : Fmt) (x : FpWord f), f.WF →
    (isFinite f x = true → ∀ y ∈ [trunc f x, ceil f x, floor f x, round f x],
      isFinite f y = true ∧ Integral f y ∧ |val f y - val f x| < 1) ∧
    (trunc f (trunc f x) = trunc f x ∧ ceil f (ceil f x) = ceil f x ∧
      floor f (floor f x) = floor f x ∧ round f (round f x) = round f x) ∧
    (isFinite f x = true → val f (floor f x) ≤ val f x ∧ val f x ≤ val f (ceil f x))

/-! ### Mode-parameterized rounding -/

/-- R91, R90, R96: RNDM completes in every state, under each of the five modes. -/
def Obligations.RndmRoundsUnderItsMode : Prop :=
  ∀ (f : Fmt) (b : Block f) (m : Mode), f.WF →
    ∃ y, exec (.rndm m) ⟨f, b⟩ = .next ⟨f, afterResponse b (floatRsp f y false false)⟩ ∧
      RoundsTo f m b.latch.x y

/-- R92: the table for a non-zero value of magnitude below one. -/
def Obligations.BelowOneFollowsTheTable : Prop :=
  ∀ (f : Fmt) (x : FpWord f), f.WF → isZero f x = false → exponent f x ≤ -1 →
    (sign f x = 0#1 →
      rndm f x .dn = zero f 0#1 ∧ rndm f x .up = one f 0#1 ∧ rndm f x .tz = zero f 0#1 ∧
      rndm f x .na = (if exponent f x = -1 then one f 0#1 else zero f 0#1) ∧
      rndm f x .ne =
        (if exponent f x = -1 ∧ (mant f x).toNat ≠ 0 then one f 0#1 else zero f 0#1)) ∧
    (sign f x = 1#1 →
      rndm f x .dn = one f 1#1 ∧ rndm f x .up = zero f 1#1 ∧ rndm f x .tz = zero f 1#1 ∧
      rndm f x .na = (if exponent f x = -1 then one f 1#1 else zero f 1#1) ∧
      rndm f x .ne =
        (if exponent f x = -1 ∧ (mant f x).toNat ≠ 0 then one f 1#1 else zero f 1#1))

/-- R94: a tie under NE, the literal ±2.0 for ±1.5 and the even neighbour elsewhere; the literal is the
neighbour away from zero. -/
def Obligations.TieGoesToTheEvenNeighbour : Prop :=
  ∀ (f : Fmt) (x : FpWord f), f.WF → 0 ≤ exponent f x → exponent f x ≤ (f.F : ℤ) - 1 →
    rem f x = half f x →
    let t := truncBits f x
    let up := incAway f t (trimOf f x)
    (exponent f x = 0 → rndm f x .ne = two f (sign f x) ∧ two f (sign f x) = up) ∧
    (1 ≤ exponent f x →
      rndm f x .ne = if (mant f t).getLsbD (trimOf f x) then up else t)

/-- R96: RNDM gives a finite value for a finite one, correctly rounded, less than one away, and a fixed
point of every mode. -/
def Obligations.RndmResultIsAFixedPoint : Prop :=
  ∀ (f : Fmt) (x : FpWord f) (m m' : Mode), f.WF →
    RoundsTo f m x (rndm f x m) ∧
    (isFinite f x = true → |val f (rndm f x m) - val f x| < 1) ∧
    rndm f (rndm f x m) m' = rndm f x m

/-- R95: RNDC under an ambient mode of the five completes, as RNDM under that mode. -/
def Obligations.RndcRoundsUnderTheAmbientMode : Prop :=
  ∀ (f : Fmt) (b : Block f) (m : Mode), f.WF → b.latch.frmS = m.code →
    exec .rndc ⟨f, b⟩ = exec (.rndm m) ⟨f, b⟩ ∧
    ∃ y, exec .rndc ⟨f, b⟩ = .next ⟨f, afterResponse b (floatRsp f y false false)⟩ ∧
      RoundsTo f m b.latch.x y

/-! ### Bounded-width conversion -/

/-- R104, R102, R109: FROMFP completes in every state, for every mode and width. -/
def Obligations.FromfpConvertsIntoTheSignedDomain : Prop :=
  ∀ (f : Fmt) (b : Block f) (m : Mode) (w : Nat), f.WF →
    ∃ y nv, exec (.fromfp m w) ⟨f, b⟩ = .next ⟨f, afterResponse b (floatRsp f y nv false)⟩ ∧
      ConvertsTo f m w false b.latch.x y nv

/-- R105, R103, R109: UFROMFP. -/
def Obligations.UfromfpConvertsIntoTheUnsignedDomain : Prop :=
  ∀ (f : Fmt) (b : Block f) (m : Mode) (w : Nat), f.WF →
    ∃ y nv, exec (.ufromfp m w) ⟨f, b⟩ = .next ⟨f, afterResponse b (floatRsp f y nv false)⟩ ∧
      ConvertsTo f m w true b.latch.x y nv

/-- R106, R108, R109: FROMFPX, which also reports inexactness: a valid result of a non-integer. -/
def Obligations.FromfpxReportsInexactness : Prop :=
  ∀ (f : Fmt) (b : Block f) (m : Mode) (w : Nat), f.WF →
    ∃ y nv nx, exec (.fromfpx m w) ⟨f, b⟩ = .next ⟨f, afterResponse b (floatRsp f y nv nx)⟩ ∧
      ConvertsTo f m w false b.latch.x y nv ∧ (nx = true ↔ nv = false ∧ ¬Integral f b.latch.x)

/-- R107, R108, R109: UFROMFPX. -/
def Obligations.UfromfpxReportsInexactness : Prop :=
  ∀ (f : Fmt) (b : Block f) (m : Mode) (w : Nat), f.WF →
    ∃ y nv nx, exec (.ufromfpx m w) ⟨f, b⟩ = .next ⟨f, afterResponse b (floatRsp f y nv nx)⟩ ∧
      ConvertsTo f m w true b.latch.x y nv ∧ (nx = true ↔ nv = false ∧ ¬Integral f b.latch.x)

/-- R102, R103: the exponent tests are the mathematical ranges, for a finite integral value and a width
of at least one. -/
def Obligations.RangeTestsAreTheStatedRanges : Prop :=
  ∀ (f : Fmt) (r : FpWord f) (w : Nat), f.WF → isFinite f r = true → Integral f r → 1 ≤ w →
    (inSignedRange f r w = true ↔
      -(2 : ℚ) ^ (w - 1) ≤ val f r ∧ val f r ≤ (2 : ℚ) ^ (w - 1) - 1) ∧
    (inUnsignedRange f r w = true ↔ 0 ≤ val f r ∧ val f r ≤ (2 : ℚ) ^ w - 1)

/-- R108, R109: a bounded conversion gives an integral finite value or exactly `QNAN`, and its result
is inexact exactly when it is valid and differs from the operand, bit for bit. -/
def Obligations.BoundedResultIsAnIntegerOrQnan : Prop :=
  ∀ (f : Fmt) (x : FpWord f) (m : Mode) (w : Nat) (unsigned : Bool), f.WF →
    let y := (bounded f x m w unsigned).1
    let domErr := (bounded f x m w unsigned).2
    (domErr = false → isFinite f y = true ∧ Integral f y) ∧ (domErr = true → y = qnan f) ∧
    isNan f (qnan f) = true ∧ (inexact f x y = true ↔ domErr = false ∧ y ≠ x)

/-! ### Native-integer conversion -/

/-- R111, R113, R114: RTSI completes in every state, for every native width. -/
def Obligations.RtsiRoundsAndClamps : Prop :=
  ∀ (f : Fmt) (b : Block f) (iw : IntWidth), f.WF →
    ∃ i ovf, exec (.rtsi iw) ⟨f, b⟩ = .next ⟨f, afterResponse b (intRsp f i ovf)⟩ ∧
      NarrowsTo f .na iw.bits b.latch.x i ovf

/-- R112, R113, R114: RTSIC under an ambient mode of the five. -/
def Obligations.RtsicRoundsAndClamps : Prop :=
  ∀ (f : Fmt) (b : Block f) (iw : IntWidth) (m : Mode), f.WF → b.latch.frmS = m.code →
    ∃ i ovf, exec (.rtsic iw) ⟨f, b⟩ = .next ⟨f, afterResponse b (intRsp f i ovf)⟩ ∧
      NarrowsTo f m iw.bits b.latch.x i ovf

/-- R112: with the ambient mode NA, RTSIC is RTSI. -/
def Obligations.RtsicUnderTiesAwayIsRtsi : Prop :=
  ∀ (s : State) (iw : IntWidth), s.fmt.WF → s.frmS = 4#3 → exec (.rtsic iw) s = exec (.rtsi iw) s

/-- R110: narrowing a finite integral value, and narrowing what is not finite. -/
def Obligations.NarrowingClampsToTheRange : Prop :=
  ∀ (f : Fmt) (r : FpWord f) (iw : IntWidth), f.WF →
    let bound : ℤ := if sign f r = 1#1 then -(2 ^ (iw.bits - 1)) else 2 ^ (iw.bits - 1) - 1
    (isFinite f r = false → narrow f r iw.bits = (bound, true)) ∧
    (isFinite f r = true → Integral f r →
      (-(2 : ℚ) ^ (iw.bits - 1) ≤ val f r ∧ val f r ≤ (2 : ℚ) ^ (iw.bits - 1) - 1 →
        ((narrow f r iw.bits).1 : ℚ) = val f r ∧ (narrow f r iw.bits).2 = false) ∧
      (¬(-(2 : ℚ) ^ (iw.bits - 1) ≤ val f r ∧ val f r ≤ (2 : ℚ) ^ (iw.bits - 1) - 1) →
        narrow f r iw.bits = (bound, true)))

/-- R113: bits 63 to IW of `i_out` equal bit IW-1 after a native conversion. -/
def Obligations.IntegerPortIsSignExtended : Prop :=
  ∀ (f : Fmt) (b : Block f) (iw : IntWidth) (t : State), f.WF →
    exec (.rtsi iw) ⟨f, b⟩ = .next t ∨ exec (.rtsic iw) ⟨f, b⟩ = .next t →
    ∃ r : Response f, t = ⟨f, afterResponse b r⟩ ∧ r.yOut = 0#f.N ∧
      ∀ k, iw.bits ≤ k → k < 64 → r.iOut.getLsbD k = r.iOut.getLsbD (iw.bits - 1)

/-! ### Signals and errors -/

/-- R17: the accumulation, that nothing is cleared, that an error changes nothing, and that no result
depends on a flag. -/
def Obligations.SignalsAccumulateByOr : Prop :=
  (∀ (f : Fmt) (b : Block f) (i : Instr) (t : State), exec i ⟨f, b⟩ = .next t →
    ∃ r : Response f, r.err = 0#2 ∧ t = ⟨f, afterResponse b r⟩ ∧
      ∀ e : Env, exec i ⟨f, { b with env := e }⟩ = .next ⟨f, afterResponse { b with env := e } r⟩) ∧
  (∀ (f : Fmt) (w : CmdWord) (x : FpWord f) (e : Env),
    let r := (transaction f w x e).1
    let e' := (transaction f w x e).2
    (r.err ≠ 0#2 → e' = e) ∧
    (r.err = 0#2 → e' = ⟨e.frm, e.nv || r.nv, e.nx || r.nx, e.edom || r.edom⟩) ∧
    (∀ nv nx edom, (transaction f w x ⟨e.frm, nv, nx, edom⟩).1 = r))

/-- R121, R123, R124, R128, R18: which command can raise which signal, and which never come together. -/
def Obligations.SignalsByCommand : Prop :=
  ∀ (f : Fmt) (b : Block f) (i : Instr) (t : State), f.WF → exec i ⟨f, b⟩ = .next t →
    ∃ r : Response f, t = ⟨f, afterResponse b r⟩ ∧
      (r.nv = true → r.nx = false) ∧ (r.edom = true → r.nv = true) ∧
      (i.subBlock = .selector ∨ i.subBlock = .modeRounder →
        r.nv = false ∧ r.nx = false ∧ r.edom = false ∧ t.block.env = b.env) ∧
      (i.subBlock = .boundedConverter → r.edom = false) ∧
      (i.subBlock = .nativeConverter → r.nx = false ∧ r.edom = r.nv) ∧
      ((∃ m w, i = .fromfp m w ∨ i = .ufromfp m w) → r.nx = false)

/-- R127: an undefined ambient mode fails RNDC and RTSIC, in the model a fault, in the hardware an error
response that changes nothing; every other command completes, with one and the same response whatever
the ambient mode and the sampled mode are. -/
def Obligations.UndefinedModeStopsOnlyRndcAndRtsic : Prop :=
  (∀ s : State, 4 < s.frmS.toNat →
    exec .rndc s = .fault .envModeUndefined ∧
    ∀ iw, exec (.rtsic iw) s = .fault .envModeUndefined) ∧
  (∀ (f : Fmt) (w : CmdWord) (x : FpWord f) (e : Env), 4 < e.frm.toNat →
    (decode w = .ok .rndc ∨ ∃ iw, decode w = .ok (.rtsic iw)) →
    transaction f w x e = (⟨2#2, 0#f.N, 0#64, false, false, false⟩, e)) ∧
  (∀ (f : Fmt) (b : Block f) (i : Instr), i ≠ .rndc → (∀ iw, i ≠ .rtsic iw) →
    ∃ r : Response f, r.err = 0#2 ∧ ∀ frm frmS : BitVec 3,
      let b' : Block f := { b with env := { b.env with frm := frm },
                                   latch := { b.latch with frmS := frmS } }
      exec i ⟨f, b'⟩ = .next ⟨f, afterResponse b' r⟩)

/-- R120, R125: the machine's step on a command is the hardware's transaction where that answers OK;
there is no code but 0, 1 and 2.  Where the transaction answers 1 or 2 the step is a fault: that is not
R120's word but the model's reading of R126 and R127 (log entry 4). -/
def Obligations.StepIsTheTransaction : Prop :=
  ∀ (f : Fmt) (b : Block f) (w : CmdWord) (x : FpWord f) (rest : List (HostEvent f)),
    b.busy = false → b.host = .command w x :: rest →
    let r := (transaction f w x b.env).1
    let e := (transaction f w x b.env).2
    (r.err = 0#2 →
      step ⟨f, b⟩ = .next ⟨f, ⟨e, false, ⟨w, x, b.env.frm⟩, some r, none, rest⟩⟩) ∧
    (r.err = 1#2 → step ⟨f, b⟩ = .fault .illegalCmd) ∧
    (r.err = 2#2 → step ⟨f, b⟩ = .fault .envModeUndefined) ∧
    r.err ≠ 3#2

/-! ### Events -/

/-- R120, R31, R32: when the presented word decodes, the step is the instruction's, on the block that has
just sampled the word, the operand and the mode; and so it is in the response cycle of a command
accepted earlier, which comes with the host's event for it or, where no event is left, by itself (log
entry 17). -/
def Obligations.StepRunsTheDecodedInstruction : Prop :=
  ∀ (f : Fmt) (b : Block f) (i : Instr) (w : CmdWord) (x : FpWord f) (rest : List (HostEvent f)),
    (b.busy = false → b.host = .command w x :: rest → decode w = .ok i →
      step ⟨f, b⟩ = exec i ⟨f, ⟨b.env, true, ⟨w, x, b.env.frm⟩, none, none, rest⟩⟩) ∧
    (b.busy = true → b.host = .respond none :: rest → decode b.latch.cmd = .ok i →
      step ⟨f, b⟩ = exec i ⟨f, ⟨b.env, true, b.latch, none, none, rest⟩⟩) ∧
    (b.busy = true → b.host = [] → decode b.latch.cmd = .ok i →
      step ⟨f, b⟩ = exec i ⟨f, ⟨b.env, true, b.latch, none, none, []⟩⟩)

/-- R16, R13 to R15: HREAD and HWRITE, register by register. -/
def Obligations.HostReadsAndWritesEnv : Prop :=
  ∀ (f : Fmt) (b : Block f) (n : Nat) (v : HostWord) (rest : List (HostEvent f)),
    (b.host = .access (.hread n) :: rest →
      ∃ d, step ⟨f, b⟩ = .next ⟨f, ⟨b.env, b.busy, b.latch, none, some d, rest⟩⟩ ∧
        (n = 0 → d.toNat = b.env.frm.toNat) ∧
        (n = 1 → d.toNat = b.env.nv.toNat + 2 * b.env.nx.toNat) ∧
        (n = 2 → d.toNat = b.env.edom.toNat) ∧ (2 < n → d.toNat = 0)) ∧
    (b.host = .access (.hwrite n v) :: rest →
      ∃ e, step ⟨f, b⟩ = .next ⟨f, ⟨e, b.busy, b.latch, none, none, rest⟩⟩ ∧
        (n = 0 → e = ⟨v.extractLsb' 0 3, b.env.nv, b.env.nx, b.env.edom⟩) ∧
        (n = 1 → e = ⟨b.env.frm, v.getLsbD 0, v.getLsbD 1, b.env.edom⟩) ∧
        (n = 2 → e = ⟨b.env.frm, b.env.nv, b.env.nx, v.getLsbD 0⟩) ∧ (2 < n → e = b.env))

/-- R13: FRM keeps any 3-bit value written, a mode or not, and reads it back. -/
def Obligations.FrmReadsBackAnyValue : Prop :=
  ∀ (f : Fmt) (b : Block f) (v : HostWord) (rest : List (HostEvent f)),
    b.host = .access (.hwrite 0 v) :: .access (.hread 0) :: rest →
    ∃ d, Host.Core.run Sys2Proof.core 2 ⟨f, b⟩ =
        .next ⟨f, ⟨⟨v.extractLsb' 0 3, b.env.nv, b.env.nx, b.env.edom⟩, b.busy, b.latch, none, some d,
          rest⟩⟩ ∧
      d.toNat = v.toNat % 8

/-- R37 clauses 1 to 3: a write of FRM before a command is sampled by it, and a read after the response
sees its signals.  Stated for a command that answers OK. -/
def Obligations.HostOrderIsObserved : Prop :=
  ∀ (f : Fmt) (b : Block f) (w : CmdWord) (x : FpWord f) (v : HostWord) (rest : List (HostEvent f)),
    b.busy = false → b.host = .access (.hwrite 0 v) :: .command w x :: .access (.hread 1) :: rest →
    let r := (transaction f w x ⟨v.extractLsb' 0 3, b.env.nv, b.env.nx, b.env.edom⟩).1
    r.err = 0#2 →
    ∃ b' : Block f, Host.Core.run Sys2Proof.core 2 ⟨f, b⟩ = .next ⟨f, b'⟩ ∧ b'.rsp = some r ∧
      ∃ d b'', step ⟨f, b'⟩ = .next ⟨f, b''⟩ ∧ b''.hostData = some d ∧
        d.getLsbD 0 = (b.env.nv || r.nv) ∧ d.getLsbD 1 = (b.env.nx || r.nx)

/-- R32, R142 H7: a command presented while one is in flight is not accepted. -/
def Obligations.BusyBlockAcceptsNothing : Prop :=
  ∀ (f : Fmt) (b : Block f) (w : CmdWord) (x : FpWord f) (rest : List (HostEvent f)),
    b.busy = true → b.host = .command w x :: rest ∨ b.host = .accept w x :: rest →
    step ⟨f, b⟩ = .next ⟨f, ⟨b.env, true, b.latch, none, none, rest⟩⟩

/-- R31, R32, R143: a transaction in one event and one split into acceptance and response end alike. -/
def Obligations.SplitTransactionEndsAlike : Prop :=
  ∀ (f : Fmt) (b : Block f) (w : CmdWord) (x : FpWord f) (rest : List (HostEvent f)), b.busy = false →
    Host.Core.run Sys2Proof.core 2 ⟨f, { b with host := .accept w x :: .respond none :: rest }⟩ =
      Host.Core.run Sys2Proof.core 1 ⟨f, { b with host := .command w x :: rest }⟩

/-- R19, R142 H3: a write of FRM while a command is in flight does not reach it, and applies from then
on. -/
def Obligations.ModeWriteInFlightIsNotSampled : Prop :=
  ∀ (f : Fmt) (b : Block f) (w : CmdWord) (x : FpWord f) (v : HostWord) (rest : List (HostEvent f)),
    b.busy = false → b.host = .accept w x :: .access (.hwrite 0 v) :: .respond none :: rest →
    let r := (transaction f w x b.env).1
    r.err = 0#2 →
    Host.Core.run Sys2Proof.core 3 ⟨f, b⟩ =
      .next ⟨f, ⟨⟨v.extractLsb' 0 3, b.env.nv || r.nv, b.env.nx || r.nx, b.env.edom || r.edom⟩, false,
        ⟨w, x, b.env.frm⟩, some r, none, rest⟩⟩

/-- An HREAD of FFLAGS in the response cycle itself returns the flags as they were before the
accumulation.  The model's choice (log entry 8), deduced from R142 H3, which speaks of a read between
acceptance and response; R37 clause 3 speaks of a read before acceptance or after the response. -/
def Obligations.ReadInResponseCycleSeesTheOldEnv : Prop :=
  ∀ (f : Fmt) (b : Block f) (w : CmdWord) (x : FpWord f) (rest : List (HostEvent f)),
    b.busy = false → b.host = .accept w x :: .respond (some (.hread 1)) :: rest →
    let r := (transaction f w x b.env).1
    let e := (transaction f w x b.env).2
    r.err = 0#2 →
    ∃ d, Host.Core.run Sys2Proof.core 2 ⟨f, b⟩ =
        .next ⟨f, ⟨e, false, ⟨w, x, b.env.frm⟩, some r, some d, rest⟩⟩ ∧
      d.toNat = b.env.nv.toNat + 2 * b.env.nx.toNat

/-- R37 clause 4, U6: a write to FFLAGS or FERRNO in a response cycle is refused by name. -/
def Obligations.WriteCollisionIsRefused : Prop :=
  ∀ (f : Fmt) (b : Block f) (n : Nat) (v : HostWord) (rest : List (HostEvent f)),
    b.busy = true → b.host = .respond (some (.hwrite n v)) :: rest → n = 1 ∨ n = 2 →
    step ⟨f, b⟩ = .refused .envWriteCollision

/-- R23: what reset leaves, for every format; the machine's reset state is that of some format. -/
def Obligations.ResetStateHasTheStatedValues : Prop :=
  ∀ f : Fmt,
    (State.resetOf f).fmt = f ∧ (State.resetOf f).block.env = ⟨3#3, false, false, false⟩ ∧
    (State.resetOf f).block.env.frm = Mode.ne.code ∧ (State.resetOf f).block.busy = false ∧
    (State.resetOf f).block.rsp = none ∧ ∃ f' : Fmt, Sys2Proof.core.reset = State.resetOf f'

/-- R140: the reset event, from every state: `ENV` at its reset values, no command in flight, no
response, nothing kept but the host's own events; and the next command is accepted.  That the events
are kept and the dead latches zeroed is the model's choice (log entries 5 and 11). -/
def Obligations.ResetAbandonsTheCommandInFlight : Prop :=
  ∀ (f : Fmt) (b : Block f) (w : CmdWord) (x : FpWord f) (rest : List (HostEvent f)),
    (b.host = .reset :: rest →
      step ⟨f, b⟩ = .next ⟨f, { (State.resetOf f).block with host := rest }⟩) ∧
    (b.host = .reset :: .accept w x :: rest →
      Host.Core.run Sys2Proof.core 2 ⟨f, b⟩ =
        .next ⟨f, ⟨⟨3#3, false, false, false⟩, true, ⟨w, x, 3#3⟩, none, none, rest⟩⟩)

/-- R13, R14, R15, R17, R19: over every step: the format stays, one event is used up, FRM changes only by
the host's write or a reset, a flag is cleared only so, and the latches change only at an acceptance or
a reset. -/
def Obligations.OnlyTheHostClearsFlagsOrWritesFrm : Prop :=
  ∀ (f : Fmt) (b : Block f) (t : State), step ⟨f, b⟩ = .next t →
    ∃ b' : Block f, t = ⟨f, b'⟩ ∧ b'.host = b.host.tail ∧
      (b'.env.frm ≠ b.env.frm →
        b.host.head? = some .reset ∨
          ∃ v, HostWrites b.host.head? 0 v ∧ b'.env.frm = v.extractLsb' 0 3) ∧
      (b.env.nv = true → b'.env.nv = false →
        b.host.head? = some .reset ∨ ∃ v, HostWrites b.host.head? 1 v ∧ v.getLsbD 0 = false) ∧
      (b.env.nx = true → b'.env.nx = false →
        b.host.head? = some .reset ∨ ∃ v, HostWrites b.host.head? 1 v ∧ v.getLsbD 1 = false) ∧
      (b.env.edom = true → b'.env.edom = false →
        b.host.head? = some .reset ∨ ∃ v, HostWrites b.host.head? 2 v ∧ v.getLsbD 0 = false) ∧
      (b'.latch ≠ b.latch → b.host.head? = some .reset ∨ PresentsCommand b.host.head?)

/-! ### Invariant and safe runs -/

/-- R17, R18, R30, R124, R128: every step re-establishes the invariant. -/
def Obligations.EveryStepKeepsResponsesCoherent : Prop :=
  ∀ s t : State, s.Inv → step s = .next t → t.Inv

/-- R5, R23: the invariant holds right after reset, for every format a block may be built for; the
format of `State.reset` itself is the model's choice (log entry 1). -/
def Obligations.ResetStateIsCoherent : Prop :=
  (∀ f : Fmt, f.WF → (State.resetOf f).Inv) ∧ State.reset.Inv

/-- R32, R142, R120: a host that keeps H1, H2, H3 and H7 is never stopped, for runs of every length,
from every state. -/
def Obligations.DisciplinedHostIsNeverStopped : Prop :=
  ∀ (s : State) (n : Nat), s.Disciplined → s.RunsFor n

/-! ### Every accepted command responds -/

/-- R32: a command in flight, of every legal or illegal word, is answered in a bounded number of steps,
whatever the host does in between, a reset (R140) and a refused collision (log entry 9) excepted.  No
response comes before; its one response is that of the word, the operand and the mode sampled at
acceptance, and the block is ready again.  In place of an error response the run faults, which is the
model's reading of R126 and R127 (log entry 4); that the response comes at the latest one step after
the host's last event is the model's choice (log entry 17). -/
def Obligations.EveryAcceptedCommandResponds : Prop :=
  ∀ (f : Fmt) (b : Block f), b.busy = true → HostEvent.reset ∉ b.host →
    (∀ a, HostEvent.respond (some a) ∈ b.host → a.collides = false) →
    (commandOk b.latch.cmd b.latch.frmS = true →
      ∃ i r, decode b.latch.cmd = .ok i ∧ operation f i b.latch.x b.latch.frmS = some r ∧
        ∃ k ≤ b.host.length,
          (∀ j, 1 ≤ j → j ≤ k → ∃ b' : Block f, Host.Core.run Sys2Proof.core j ⟨f, b⟩ = .next ⟨f, b'⟩ ∧
            b'.busy = true ∧ b'.rsp = none) ∧
          ∃ b' : Block f, Host.Core.run Sys2Proof.core (k + 1) ⟨f, b⟩ = .next ⟨f, b'⟩ ∧
            b'.busy = false ∧ b'.rsp = some r) ∧
    (commandOk b.latch.cmd b.latch.frmS = false →
      ∃ k ≤ b.host.length, ∃ e, Host.Core.run Sys2Proof.core (k + 1) ⟨f, b⟩ = .fault e)
end

