-- ==== Sys2Proof/Laws/Decode.lean ====
section
/-! SUPPORT. The fields of an assembled command word, and the codes read back. -/

namespace Sys2Proof

variable (width : BitVec 16) (isel : BitVec 2) (mode : BitVec 3) (op : BitVec 4)

/-- The bits of an assembled word, field by field from the top (`30_encoding.md` R46). -/
theorem commandWord_getLsbD (i : Nat) :
    (commandWord width isel mode op).getLsbD i =
      if i < 4 then op.getLsbD i
      else if i < 7 then mode.getLsbD (i - 4)
      else if i < 8 then false
      else if i < 10 then isel.getLsbD (i - 8)
      else if i < 16 then false
      else width.getLsbD (i - 16) := by
  simp only [commandWord, BitVec.getLsbD_append]
  split_ifs <;> first | rfl | (exfalso; omega) | simp [BitVec.getLsbD_ofNat]

@[simp] theorem opField_commandWord : opField (commandWord width isel mode op) = op := by
  ext i hi
  simp [opField, BitVec.getElem_extractLsb', commandWord_getLsbD, BitVec.getLsbD_eq_getElem, hi]

@[simp] theorem modeField_commandWord : modeField (commandWord width isel mode op) = mode := by
  ext i hi
  have h1 : ¬ 4 + i < 4 := by omega
  have h2 : 4 + i < 7 := by omega
  simp [modeField, BitVec.getElem_extractLsb', commandWord_getLsbD, h2, BitVec.getLsbD_eq_getElem hi]

@[simp] theorem rsv7Field_commandWord : rsv7Field (commandWord width isel mode op) = 0#1 := by
  ext i hi
  obtain rfl : i = 0 := by omega
  rw [rsv7Field, BitVec.getElem_extractLsb', commandWord_getLsbD]
  simp

@[simp] theorem iselField_commandWord : iselField (commandWord width isel mode op) = isel := by
  ext i hi
  have h1 : 8 + i < 10 := by omega
  have h2 : ¬ 8 + i < 4 := by omega
  have h3 : ¬ 8 + i < 7 := by omega
  have h4 : ¬ 8 + i < 8 := by omega
  simp [iselField, BitVec.getElem_extractLsb', commandWord_getLsbD, h1, h2, h3, BitVec.getLsbD_eq_getElem hi]

@[simp] theorem rsv10Field_commandWord : rsv10Field (commandWord width isel mode op) = 0#6 := by
  ext i hi
  have h0 : 10 + i < 16 := by omega
  have h1 : ¬ 10 + i < 10 := by omega
  have h2 : ¬ 10 + i < 4 := by omega
  have h3 : ¬ 10 + i < 7 := by omega
  have h4 : ¬ 10 + i < 8 := by omega
  simp [rsv10Field, BitVec.getElem_extractLsb', commandWord_getLsbD, h0, h2, h3, h4]

@[simp] theorem widthField_commandWord : widthField (commandWord width isel mode op) = width := by
  ext i hi
  have h0 : ¬ 16 + i < 16 := by omega
  have h1 : ¬ 16 + i < 10 := by omega
  have h2 : ¬ 16 + i < 4 := by omega
  have h3 : ¬ 16 + i < 7 := by omega
  have h4 : ¬ 16 + i < 8 := by omega
  simp [widthField, BitVec.getElem_extractLsb', commandWord_getLsbD, h1, h2, h3, h4,
    BitVec.getLsbD_eq_getElem hi]

/-- A word with zero reserved bits is assembled from its own fields. -/
theorem commandWord_fields (w : CmdWord) (h7 : rsv7Field w = 0#1) (h10 : rsv10Field w = 0#6) :
    commandWord (widthField w) (iselField w) (modeField w) (opField w) = w := by
  have e7 : w.getLsbD 7 = false := by
    have := congrArg (·.getLsbD 0) h7
    simpa [rsv7Field] using this
  have e10 : ∀ i, i < 6 → w.getLsbD (10 + i) = false := fun i hi => by
    have := congrArg (·.getLsbD i) h10
    simpa [rsv10Field, hi] using this
  apply BitVec.eq_of_getLsbD_eq
  intro i hi
  rw [commandWord_getLsbD]
  split_ifs with a b c d e
  · simp [opField, a]
  · simp [modeField, show i - 4 < 3 by omega, show 4 + (i - 4) = i by omega]
  · obtain rfl : i = 7 := by omega
    exact e7.symm
  · simp [iselField, show i - 8 < 2 by omega, show 8 + (i - 8) = i by omega]
  · have := e10 (i - 10) (by omega)
    rw [show 10 + (i - 10) = i by omega] at this
    exact this.symm
  · simp [widthField, show i - 16 < 16 by omega, show 16 + (i - 16) = i by omega]

@[simp] theorem Mode.ofCode_code (m : Mode) : Mode.ofCode m.code = some m := by cases m <;> rfl

/-- A code names a mode exactly when it is at most 4 (`30_encoding.md` R50). -/
theorem Mode.ofCode_eq_some_iff (c : BitVec 3) (m : Mode) : Mode.ofCode c = some m ↔ c = m.code := by
  revert c m
  have : ∀ c : BitVec 3, ∀ m ∈ [Mode.dn, .up, .tz, .ne, .na], Mode.ofCode c = some m ↔ c = m.code := by
    decide
  intro c m
  exact this c m (by cases m <;> simp)

theorem Mode.ofCode_eq_none_iff (c : BitVec 3) : Mode.ofCode c = none ↔ 4 < c.toNat := by
  revert c; decide

@[simp] theorem IntWidth.ofIsel_isel (iw : IntWidth) : IntWidth.ofIsel iw.isel = iw := by
  cases iw <;> rfl

@[simp] theorem IntWidth.isel_ofIsel (c : BitVec 2) : (IntWidth.ofIsel c).isel = c := by
  revert c; decide

end Sys2Proof
end

