-- ==== Sys2Proof/Laws/Format.lean ====
section
/-! SUPPORT. The arithmetic of a format's constants, which the proofs about operands start from. -/

namespace Sys2Proof

/-- `EMAXB = 2 * BIAS + 1`. -/
theorem Fmt.emaxb_eq (f : Fmt) (h : f.WF) : f.emaxb = 2 * f.bias + 1 := by
  obtain ⟨hE, -⟩ := h
  have hp : 2 ^ f.E = 2 * 2 ^ (f.E - 1) := by
    rw [← Nat.pow_succ']
    congr 1
    omega
  have : 0 < 2 ^ (f.E - 1) := Nat.two_pow_pos _
  simp only [Fmt.emaxb, Fmt.bias, hp]
  omega

/-- `BIAS ≥ 3`, so that a zero or subnormal has exponent at most −3 (`40_fp_primitives.md` R64). -/
theorem Fmt.three_le_bias (f : Fmt) (h : f.WF) : 3 ≤ f.bias := by
  obtain ⟨hE, -⟩ := h
  have : 2 ^ 2 ≤ 2 ^ (f.E - 1) := Nat.pow_le_pow_right (by decide) (by omega)
  simp only [Fmt.bias]
  omega

/-- A biased exponent fits its field. -/
theorem Fmt.emaxb_lt (f : Fmt) : f.emaxb < 2 ^ f.E := by
  have : 0 < 2 ^ f.E := Nat.two_pow_pos _
  simp only [Fmt.emaxb]
  omega

end Sys2Proof

namespace Sys2Proof.Machine

/-- A class test of the exponent field against an infinity or NaN, as a fact about numbers. -/
theorem isInfOrNan_iff (f : Fmt) (x : FpWord f) : isInfOrNan f x = true ↔ (bexp f x).toNat = f.emaxb := by
  simp [isInfOrNan]

/-- A zero is a pattern whose magnitude fields are zero (R63). -/
theorem isZero_iff (f : Fmt) (x : FpWord f) :
    isZero f x = true ↔ (bexp f x).toNat = 0 ∧ (mant f x).toNat = 0 := by
  simp [isZero]

/-- The exponent of a zero or subnormal is `-BIAS` (R64). -/
theorem exponent_of_bexp_zero (f : Fmt) (x : FpWord f) (h : (bexp f x).toNat = 0) :
    exponent f x = -(f.bias : Int) := by
  simp [exponent, h]

end Sys2Proof.Machine
end

