-- ==== Sys2Proof/Laws/PerInstr.lean ====
section
/-! SUPPORT. A statement about every command, one lemma per constructor: what stands in each field of
its word (`30_encoding.md` R46, R47). -/

namespace Sys2Proof.Laws.EncodeFields

/-- The word of `i` has `i`'s op code, zero reserved bits, and zero in every field `i`'s format does not
use (R46, R47). -/
def Statement (i : Instr) : Prop :=
  opField (encode i) = i.opcode ∧ rsv7Field (encode i) = 0#1 ∧ rsv10Field (encode i) = 0#6 ∧
    (i.cmdFormat = .c0 → modeField (encode i) = 0#3) ∧
    (i.cmdFormat = .ci → modeField (encode i) = 0#3) ∧
    (i.cmdFormat ≠ .ci → iselField (encode i) = 0#2) ∧
    (i.cmdFormat ≠ .cw → widthField (encode i) = 0#16)

/-- The statement of every command, from the field lemmas of an assembled word. -/
theorem of_fields (i : Instr) : Statement i := by
  cases i <;> simp [Statement, encode, Instr.cmdFormat, Instr.opcode]

theorem trunc : Statement .trunc := of_fields _
theorem ceil : Statement .ceil := of_fields _
theorem floor : Statement .floor := of_fields _
theorem round : Statement .round := of_fields _
theorem rndm (m : Mode) : Statement (.rndm m) := of_fields _
theorem rndc : Statement .rndc := of_fields _
theorem fromfp (m : Mode) (w : Nat) : Statement (.fromfp m w) := of_fields _
theorem ufromfp (m : Mode) (w : Nat) : Statement (.ufromfp m w) := of_fields _
theorem fromfpx (m : Mode) (w : Nat) : Statement (.fromfpx m w) := of_fields _
theorem ufromfpx (m : Mode) (w : Nat) : Statement (.ufromfpx m w) := of_fields _
theorem rtsi (iw : IntWidth) : Statement (.rtsi iw) := of_fields _
theorem rtsic (iw : IntWidth) : Statement (.rtsic iw) := of_fields _

end Sys2Proof.Laws.EncodeFields
end

