-- ==== Sys2Proof/Laws/Results.lean ====
section
/-! SUPPORT. What the shared result functions can give, once each. -/

namespace Sys2Proof.Machine

variable (f : Fmt) (x : FpWord f)

/-- An infinity or a NaN passes through RNDM bit for bit (`42_mode_rounding.md` R91). -/
theorem rndm_of_infOrNan (m : Mode) (h : isInfOrNan f x = true) : rndm f x m = x := by simp [rndm, h]

/-- A zero passes through RNDM (R91). -/
theorem rndm_of_zero (m : Mode) (h : isZero f x = true) : rndm f x m = x := by simp [rndm, h]

/-- A value whose exponent is at least F passes through RNDM (R91). -/
theorem rndm_of_large_exponent (m : Mode) (h : (f.F : Int) ≤ exponent f x) : rndm f x m = x := by
  simp [rndm, h]

/-- An infinity or a NaN passes through TRUNC, CEIL and ROUND bit for bit
(`41_fixed_rule_rounding.md` R80). -/
theorem fixed_rules_of_infOrNan (h : isInfOrNan f x = true) :
    trunc f x = x ∧ ceil f x = x ∧ round f x = x := by
  simp [trunc, ceil, round, h]

/-- What a bounded conversion can give: `QNAN` with `dom_err`, or the rounded value of a finite operand
that passed its range test (`43_bounded_conversion.md` R101). -/
theorem bounded_cases (m : Mode) (w : Nat) (unsigned : Bool) :
    (bounded f x m w unsigned = (qnan f, true)) ∨
      (w ≠ 0 ∧ isInfOrNan f x = false ∧
        (if unsigned then inUnsignedRange f (rndm f x m) w else inSignedRange f (rndm f x m) w) = true ∧
        bounded f x m w unsigned = (rndm f x m, false)) := by
  unfold bounded
  split_ifs with h1 h2 h3 h4 <;> simp_all

/-- What narrowing can give: a bound with `ovf`, or the integer of a value whose exponent fits
(`44_native_conversion.md` R110). -/
theorem narrow_cases (iw : Nat) :
    (narrow f x iw = (clampBound f x iw, true)) ∨
      (isInfOrNan f x = false ∧ exponent f x ≤ (iw : Int) - 1 ∧ narrow f x iw = (intOf f x, false)) := by
  unfold narrow
  split_ifs with h1 h2 h3
  · exact .inl rfl
  · exact .inl rfl
  · exact .inl rfl
  · exact .inr ⟨by simpa using h1, by omega, rfl⟩

end Sys2Proof.Machine
end

