-- ==== Sys2Proof/Laws/State.lean ====
section
/-! SUPPORT. One lemma per field per update of a block, so that no later proof unfolds an update. -/

namespace Sys2Proof.Machine

variable {f : Fmt} (b : Block f)

/-! ### `Block.accept` -/

@[simp] theorem Block.accept_env (cmd : CmdWord) (x : FpWord f) : (b.accept cmd x).env = b.env := rfl
@[simp] theorem Block.accept_busy (cmd : CmdWord) (x : FpWord f) : (b.accept cmd x).busy = true := rfl
@[simp] theorem Block.accept_latch (cmd : CmdWord) (x : FpWord f) : (b.accept cmd x).latch = ⟨cmd, x, b.env.frm⟩ := rfl
@[simp] theorem Block.accept_rsp (cmd : CmdWord) (x : FpWord f) : (b.accept cmd x).rsp = b.rsp := rfl
@[simp] theorem Block.accept_hostData (cmd : CmdWord) (x : FpWord f) : (b.accept cmd x).hostData = b.hostData := rfl
@[simp] theorem Block.accept_host (cmd : CmdWord) (x : FpWord f) : (b.accept cmd x).host = b.host := rfl

/-! ### `Block.respond` -/

@[simp] theorem Block.respond_env (r : Response f) : (b.respond r).env = b.env.accumulate r := rfl
@[simp] theorem Block.respond_busy (r : Response f) : (b.respond r).busy = false := rfl
@[simp] theorem Block.respond_latch (r : Response f) : (b.respond r).latch = b.latch := rfl
@[simp] theorem Block.respond_rsp (r : Response f) : (b.respond r).rsp = some r := rfl
@[simp] theorem Block.respond_hostData (r : Response f) : (b.respond r).hostData = b.hostData := rfl
@[simp] theorem Block.respond_host (r : Response f) : (b.respond r).host = b.host := rfl

/-! ### `Block.pullReset` -/

@[simp] theorem Block.pullReset_env : (b.pullReset).env = Env.reset := rfl
@[simp] theorem Block.pullReset_busy : (b.pullReset).busy = false := rfl
@[simp] theorem Block.pullReset_latch : (b.pullReset).latch = Latch.empty f := rfl
@[simp] theorem Block.pullReset_rsp : (b.pullReset).rsp = none := rfl
@[simp] theorem Block.pullReset_hostData : (b.pullReset).hostData = none := rfl
@[simp] theorem Block.pullReset_host : (b.pullReset).host = b.host := rfl

/-! ### `Block.clearPorts` -/

@[simp] theorem Block.clearPorts_env : (b.clearPorts).env = b.env := rfl
@[simp] theorem Block.clearPorts_busy : (b.clearPorts).busy = b.busy := rfl
@[simp] theorem Block.clearPorts_latch : (b.clearPorts).latch = b.latch := rfl
@[simp] theorem Block.clearPorts_rsp : (b.clearPorts).rsp = none := rfl
@[simp] theorem Block.clearPorts_hostData : (b.clearPorts).hostData = none := rfl
@[simp] theorem Block.clearPorts_host : (b.clearPorts).host = b.host := rfl

/-! ### `Block.present` -/

@[simp] theorem Block.present_env (cmd : CmdWord) (x : FpWord f) : (b.present cmd x).env = b.env := rfl
@[simp] theorem Block.present_busy (cmd : CmdWord) (x : FpWord f) : (b.present cmd x).busy = false := rfl
@[simp] theorem Block.present_latch (cmd : CmdWord) (x : FpWord f) : (b.present cmd x).latch = b.latch := rfl
@[simp] theorem Block.present_rsp (cmd : CmdWord) (x : FpWord f) : (b.present cmd x).rsp = b.rsp := rfl
@[simp] theorem Block.present_hostData (cmd : CmdWord) (x : FpWord f) : (b.present cmd x).hostData = b.hostData := rfl
@[simp] theorem Block.present_host (cmd : CmdWord) (x : FpWord f) : (b.present cmd x).host = .command cmd x :: b.host := rfl

/-! ### `Block.access` -/

@[simp] theorem Block.access_hread (n : Nat) :
    b.access (.hread n) = { b with hostData := some (b.env.hread n) } := rfl
@[simp] theorem Block.access_hwrite (n : Nat) (v : HostWord) :
    b.access (.hwrite n v) = { b with env := b.env.hwrite n v } := rfl
@[simp] theorem Block.access_busy (a : HostAccess) : (b.access a).busy = b.busy := by cases a <;> rfl
@[simp] theorem Block.access_latch (a : HostAccess) : (b.access a).latch = b.latch := by cases a <;> rfl
@[simp] theorem Block.access_rsp (a : HostAccess) : (b.access a).rsp = b.rsp := by cases a <;> rfl
@[simp] theorem Block.access_host (a : HostAccess) : (b.access a).host = b.host := by cases a <;> rfl

/-! ### `Env.accumulate` and `Env.hwrite` -/

@[simp] theorem Env.accumulate_frm (e : Env) (r : Response f) : (e.accumulate r).frm = e.frm := rfl
@[simp] theorem Env.accumulate_nv (e : Env) (r : Response f) :
    (e.accumulate r).nv = (e.nv || r.nv) := rfl
@[simp] theorem Env.accumulate_nx (e : Env) (r : Response f) :
    (e.accumulate r).nx = (e.nx || r.nx) := rfl
@[simp] theorem Env.accumulate_edom (e : Env) (r : Response f) :
    (e.accumulate r).edom = (e.edom || r.edom) := rfl

/-- A host write changes `FRM` only through register 0. -/
theorem Env.hwrite_frm (e : Env) (n : Nat) (v : HostWord) (h : n ≠ 0) : (e.hwrite n v).frm = e.frm := by
  match n, h with
  | 1, _ => rfl
  | 2, _ => rfl
  | _ + 3, _ => rfl

/-- A host write changes `NV` and `NX` only through register 1. -/
theorem Env.hwrite_fflags (e : Env) (n : Nat) (v : HostWord) (h : n ≠ 1) :
    (e.hwrite n v).nv = e.nv ∧ (e.hwrite n v).nx = e.nx := by
  match n, h with
  | 0, _ => exact ⟨rfl, rfl⟩
  | 2, _ => exact ⟨rfl, rfl⟩
  | _ + 3, _ => exact ⟨rfl, rfl⟩

/-- A host write changes `EDOM` only through register 2. -/
theorem Env.hwrite_edom (e : Env) (n : Nat) (v : HostWord) (h : n ≠ 2) : (e.hwrite n v).edom = e.edom := by
  match n, h with
  | 0, _ => rfl
  | 1, _ => rfl
  | _ + 3, _ => rfl

end Sys2Proof.Machine
end

