-- ==== Sys2Proof/Laws/Step.lean ====
section
/-! SUPPORT. What the shared operations can answer, once each: a response, an ambient mode, an
instruction, an event. -/

namespace Sys2Proof.Machine

/-- A response always gives a next state, and this one. -/
theorem State.answer_eq_next_iff (s t : State) (r : Response s.fmt) :
    s.answer r = .next t ↔ t = { s with block := s.block.respond r } := by
  constructor
  · intro h
    cases h
    rfl
  · rintro rfl
    rfl

/-- A command that samples the mode goes on with the mode the code names. -/
theorem State.withAmbientMode_of_code (s : State) (k : Mode → Host.Outcome State Fault Refusal) (m : Mode)
    (h : s.frmS = m.code) : s.withAmbientMode k = k m := by
  simp [State.withAmbientMode, h]

/-- ... and faults on a code that names none (`60_exceptions.md` R127). -/
theorem State.withAmbientMode_undefined (s : State) (k : Mode → Host.Outcome State Fault Refusal)
    (h : 4 < s.frmS.toNat) : s.withAmbientMode k = .fault .envModeUndefined := by
  simp [State.withAmbientMode, (Mode.ofCode_eq_none_iff _).mpr h]

/-- The two cases of a command that samples the mode. -/
theorem State.withAmbientMode_cases (s : State) (k : Mode → Host.Outcome State Fault Refusal) :
    (∃ m, s.frmS = m.code ∧ s.withAmbientMode k = k m) ∨
      (4 < s.frmS.toNat ∧ s.withAmbientMode k = .fault .envModeUndefined) := by
  cases h : Mode.ofCode s.frmS with
  | some m =>
    have hm := (Mode.ofCode_eq_some_iff _ _).mp h
    exact .inl ⟨m, hm, s.withAmbientMode_of_code k m hm⟩
  | none =>
    have hn := (Mode.ofCode_eq_none_iff _).mp h
    exact .inr ⟨hn, s.withAmbientMode_undefined k hn⟩

/-- An instruction answers with a response, or faults on an undefined ambient mode; it does nothing
else. -/
theorem exec_cases (i : Instr) (s : State) :
    (∃ r, exec i s = s.answer r) ∨
      (i.readsAmbientMode = true ∧ 4 < s.frmS.toNat ∧ exec i s = .fault .envModeUndefined) := by
  cases i with
  | rndc =>
    obtain ⟨m, -, h⟩ | ⟨hn, h⟩ := s.withAmbientMode_cases fun m =>
      s.answer (floatResponse s.fmt (rndm s.fmt s.x m) Signals.none)
    · exact .inl ⟨_, h⟩
    · exact .inr ⟨rfl, hn, h⟩
  | rtsic iw =>
    obtain ⟨m, -, h⟩ | ⟨hn, h⟩ := s.withAmbientMode_cases fun m =>
      s.answer (nativeResponse s.fmt (rndm s.fmt s.x m) iw)
    · exact .inl ⟨_, h⟩
    · exact .inr ⟨rfl, hn, h⟩
  | trunc => exact .inl ⟨_, rfl⟩
  | ceil => exact .inl ⟨_, rfl⟩
  | floor => exact .inl ⟨_, rfl⟩
  | round => exact .inl ⟨_, rfl⟩
  | rndm m => exact .inl ⟨_, rfl⟩
  | fromfp m w => exact .inl ⟨_, rfl⟩
  | ufromfp m w => exact .inl ⟨_, rfl⟩
  | fromfpx m w => exact .inl ⟨_, rfl⟩
  | ufromfpx m w => exact .inl ⟨_, rfl⟩
  | rtsi iw => exact .inl ⟨_, rfl⟩

/-- The arms of `exec` are the cases of the transaction's operation (`60_exceptions.md` R120). -/
theorem exec_eq_operation (i : Instr) (s : State) :
    exec i s =
      match operation s.fmt i s.x s.frmS with
      | some r => s.answer r
      | none => .fault .envModeUndefined := by
  cases i with
  | rndc => simp only [exec, execRndc, operation, State.withAmbientMode]; cases Mode.ofCode s.frmS <;> rfl
  | rtsic iw => simp only [exec, execRtsic, operation, State.withAmbientMode]; cases Mode.ofCode s.frmS <;> rfl
  | _ => rfl

variable {f : Fmt} (b : Block f) (rest : List (HostEvent f))

/-- No event left and no command in flight: the block is idle. -/
theorem step_idle (h : b.host = []) (hb : b.busy = false) : step ⟨f, b⟩ = .next ⟨f, b.clearPorts⟩ := by
  simp [step, takeEvent, respondCycle, h, hb]

/-- No event left and a command in flight: it is answered (`20_memory.md` R32). -/
theorem step_last_response (h : b.host = []) (hb : b.busy = true) :
    step ⟨f, b⟩ = answerInFlight ⟨f, b.clearPorts⟩ := by
  simp [step, takeEvent, respondCycle, h, hb]

/-- An event is taken from the list, the ports cleared, and the event done. -/
theorem step_event (e : HostEvent f) (h : b.host = e :: rest) :
    step ⟨f, b⟩ = runEvent ⟨f, { b.clearPorts with host := rest }⟩ e := by
  simp [step, takeEvent, h]

/-- Answering the command in flight: its instruction, or the illegal word's fault. -/
theorem answerInFlight_cases (s : State) :
    (∃ i, decode s.block.latch.cmd = .ok i ∧ answerInFlight s = exec i s) ∨
      (∃ e, decode s.block.latch.cmd = .error e ∧ answerInFlight s = .fault .illegalCmd) := by
  unfold answerInFlight
  cases h : decode s.block.latch.cmd with
  | ok i => exact .inl ⟨i, rfl, rfl⟩
  | error e => exact .inr ⟨e, rfl, rfl⟩

end Sys2Proof.Machine
end

