-- ==== Sys2Proof/Machine/Asm.lean ====
section
/-! DEFINITION. The textual form of commands and host accesses (`30_encoding.md` R57).  There are no
pseudo-instructions (R58): each mnemonic is one command word. -/

namespace Sys2Proof.Machine

/-- `<mode>` (R57). -/
def modeText : Mode → String
  | .dn => "DN"
  | .up => "UP"
  | .tz => "TZ"
  | .ne => "NE"
  | .na => "NA"

/-- `<iw>` (R57). -/
def widthText : IntWidth → String
  | .i8 => "8"
  | .i16 => "16"
  | .i32 => "32"
  | .i64 => "64"

/-- One command with its operand written as `x` (R57). -/
def commandText (i : Instr) (x : String) : String :=
  match i with
  | .trunc => "TRUNC " ++ x
  | .ceil => "CEIL " ++ x
  | .floor => "FLOOR " ++ x
  | .round => "ROUND " ++ x
  | .rndm m => "RNDM " ++ modeText m ++ ", " ++ x
  | .rndc => "RNDC " ++ x
  | .fromfp m w => "FROMFP " ++ modeText m ++ ", " ++ toString w ++ ", " ++ x
  | .ufromfp m w => "UFROMFP " ++ modeText m ++ ", " ++ toString w ++ ", " ++ x
  | .fromfpx m w => "FROMFPX " ++ modeText m ++ ", " ++ toString w ++ ", " ++ x
  | .ufromfpx m w => "UFROMFPX " ++ modeText m ++ ", " ++ toString w ++ ", " ++ x
  | .rtsi iw => "RTSI." ++ widthText iw ++ " " ++ x
  | .rtsic iw => "RTSIC." ++ widthText iw ++ " " ++ x

/-- The name of an `ENV` register, where the number has one (R57, `10_state.md` R16). -/
def registerText (n : Nat) : Option String :=
  match n with
  | 0 => some "FRM"
  | 1 => some "FFLAGS"
  | 2 => some "FERRNO"
  | _ => none

/-- A host access of a named register (R57). -/
def accessText : HostAccess → Option String
  | .hread n => (registerText n).map fun r => "HREAD " ++ r
  | .hwrite n v => (registerText n).map fun r => "HWRITE " ++ r ++ ", " ++ toString v.toNat

end Sys2Proof.Machine
end

