-- ==== Sys2Proof/Tests/Slice0.lean ====
section
/-! SUPPORT. The model's own tests.  Expected values are those of `95_test_vectors.md` or of the rules
named; `test_witness_…` shows a state and operands that meet the hypotheses of a statement. -/

open Sys2Proof Sys2Proof.Machine

namespace Sys2Proof.Tests

/-! ### WellFormed -/

theorem test_wellFormed_accepts : (Instr.fromfp .ne 65535).wellFormed = true := by decide
theorem test_wellFormed_refuses_fromfp : (Instr.fromfp .ne 65536).wellFormed = false := by decide
theorem test_wellFormed_refuses_ufromfp : (Instr.ufromfp .dn 65536).wellFormed = false := by decide
theorem test_wellFormed_refuses_fromfpx : (Instr.fromfpx .up 65536).wellFormed = false := by decide
theorem test_wellFormed_refuses_ufromfpx : (Instr.ufromfpx .tz 65536).wellFormed = false := by decide

/-! ### Decoding: one word of every constructor, written from the fields of R46 -/

theorem test_decode_trunc : decode 0b00000000000000000000000000000000#32 = .ok .trunc := by decide
theorem test_decode_ceil : decode 0b00000000000000000000000000000001#32 = .ok .ceil := by decide
theorem test_decode_floor : decode 0b00000000000000000000000000000010#32 = .ok .floor := by decide
theorem test_decode_round : decode 0b00000000000000000000000000000011#32 = .ok .round := by decide
theorem test_decode_rndm : decode 0b00000000000000000000000000110100#32 = .ok (.rndm .ne) := by decide
theorem test_decode_rndc : decode 0b00000000000000000000000000000101#32 = .ok .rndc := by decide
theorem test_decode_fromfp : decode 0b00000000000010000000000000111000#32 = .ok (.fromfp .ne 8) := by
  decide
theorem test_decode_ufromfp : decode 0b00000000000010000000000000101001#32 = .ok (.ufromfp .tz 8) := by
  decide
theorem test_decode_fromfpx : decode 0b00000000000000110000000001001010#32 = .ok (.fromfpx .na 3) := by
  decide
theorem test_decode_ufromfpx : decode 0b00000000000000010000000000011011#32 = .ok (.ufromfpx .up 1) := by
  decide
theorem test_decode_rtsi : decode 0b00000000000000000000001100001100#32 = .ok (.rtsi .i64) := by decide
theorem test_decode_rtsic : decode 0b00000000000000000000000100001101#32 = .ok (.rtsic .i16) := by decide

theorem test_decode_reserved_op : decode 0x0000000E#32 = .error .reservedOp := by decide
theorem test_decode_bad_mode : decode 0x00080058#32 = .error .badMode := by decide
theorem test_decode_reserved_bit : decode 0x00000400#32 = .error .reservedBits := by decide
theorem test_decode_unused_field : decode 0x00080138#32 = .error .unusedField := by decide

/-- R48's word for FROMFP mode, w: `0x00000008 | (mode << 4) | (w << 16)` (R104). -/
theorem test_encode_fromfp : encode (.fromfp .ne 8) = 0x00080038#32 := by decide
theorem test_decodeTableWord : decodeTableWord 32 0x0000030C = some (.rtsi .i64) := by decide

/-! ### Results, binary32 -/

/-- The response of the transaction of word `w` on the binary32 pattern `x`, from `ENV.FRM` = `frm`. -/
def rsp32 (frm : BitVec 3) (w : CmdWord) (x : BitVec 32) : Response Fmt.binary32 :=
  (transaction Fmt.binary32 w x ⟨frm, false, false, false⟩).1

/-- `y_out` and `(nv, nx)` of it. -/
def y32 (frm : BitVec 3) (w : CmdWord) (x : BitVec 32) : Nat × Bool × Bool :=
  ((rsp32 frm w x).yOut.toNat, (rsp32 frm w x).nv, (rsp32 frm w x).nx)

/-- `i_out` and `(nv, edom)` of it. -/
def i32 (frm : BitVec 3) (w : CmdWord) (x : BitVec 32) : BitVec 64 × Bool × Bool :=
  ((rsp32 frm w x).iOut, (rsp32 frm w x).nv, (rsp32 frm w x).edom)

/-- E7; 2.1. -/
theorem test_trunc_minus_zero : y32 3#3 0#32 0x80000000#32 = (0x80000000, false, false) := by decide
theorem test_trunc_127_6 : y32 3#3 0#32 0x42FF3333#32 = (0x42FE0000, false, false) := by decide
/-- E5; 2.1, the carry into the exponent. -/
theorem test_ceil_minus_0_3 : y32 3#3 1#32 0xBE99999A#32 = (0x80000000, false, false) := by decide
theorem test_ceil_carries : y32 3#3 1#32 0x4AFFFFFF#32 = (0x4B000000, false, false) := by decide
/-- 2.1: −2.5, and a negative NaN bit for bit. -/
theorem test_floor_minus_2_5 : y32 3#3 2#32 0xC0200000#32 = (0xC0400000, false, false) := by decide
theorem test_floor_nan : y32 3#3 2#32 0xFFC12345#32 = (0xFFC12345, false, false) := by decide
/-- E4; 2.1. -/
theorem test_round_minus_2_5 : y32 3#3 3#32 0xC0200000#32 = (0xC0400000, false, false) := by decide
theorem test_round_0_5 : y32 3#3 3#32 0x3F000000#32 = (0x3F800000, false, false) := by decide
/-- 2.2: the literal 2.0 of R94; E2, the odd neighbour. -/
theorem test_rndm_ne_1_5 : y32 3#3 0x34#32 0x3FC00000#32 = (0x40000000, false, false) := by decide
theorem test_rndm_ne_3_5 : y32 3#3 0x34#32 0x40600000#32 = (0x40800000, false, false) := by decide
/-- P2: RNDC under DN; P4: the undefined mode's error response. -/
theorem test_rndc_dn : y32 0#3 5#32 0xC0200000#32 = (0xC0400000, false, false) := by decide
theorem test_rndc_undefined_mode : (rsp32 6#3 5#32 0x40200000#32).err = 2#2 := by decide
/-- 2.5: decided on the rounded value; the bound 2^25 - 1 that binary32 cannot hold. -/
theorem test_fromfp_ties_to_128 : y32 3#3 0x00080038#32 0x42FF0000#32 = (0x7FC00000, true, false) := by
  decide
theorem test_fromfp_w26 : y32 3#3 0x001A0038#32 0x4C000000#32 = (0x7FC00000, true, false) := by decide
/-- 2.5: −0 is in the unsigned domain; −1 is not. -/
theorem test_ufromfp_minus_0_3 : y32 3#3 0x00080029#32 0xBE99999A#32 = (0x80000000, false, false) := by
  decide
theorem test_ufromfp_minus_1 : y32 3#3 0x00080039#32 0xBF800000#32 = (0x7FC00000, true, false) := by decide
/-- E13 and its failure at w = 2. -/
theorem test_fromfpx_2_5 : y32 3#3 0x0003003A#32 0x40200000#32 = (0x40000000, false, true) := by decide
theorem test_fromfpx_2_5_w2 : y32 3#3 0x0002003A#32 0x40200000#32 = (0x7FC00000, true, false) := by decide
/-- 2.5. -/
theorem test_ufromfpx_subnormal : y32 3#3 0x0001001B#32 0x00000001#32 = (0x3F800000, false, true) := by
  decide
theorem test_ufromfpx_200 : y32 3#3 0x0008003B#32 0x43480000#32 = (0x43480000, false, false) := by decide
/-- E10; 2.7, the negative NaN. -/
theorem test_rtsi_127_6 : i32 3#3 0x0000000C#32 0x42FF3333#32 = (0x7F#64, true, true) := by decide
theorem test_rtsi_nan : i32 3#3 0x0000000C#32 0xFFC12345#32 = (0xFFFFFFFFFFFFFF80#64, true, true) := by
  decide
/-- 2.7. -/
theorem test_rtsic_up : i32 1#3 0x0000000D#32 0x42FECCCD#32 = (0x7F#64, true, true) := by decide
theorem test_rtsic_dn : i32 0#3 0x0000000D#32 0xBE99999A#32 = (0xFFFFFFFFFFFFFFFF#64, false, false) := by
  decide

/-- 2.3 and 2.4: the same functions in other formats. -/
theorem test_round_binary16 : (round Fmt.binary16 0x63FF#16).toNat = 0x6400 := by decide
theorem test_rndm_binary64 : (rndm Fmt.binary64 0x3FDFFFFFFFFFFFFF#64 .na).toNat = 0 := by decide
/-- 2.6. -/
theorem test_fromfp_binary16 :
    (bounded Fmt.binary16 0x6C00#16 .ne 13 false).1.toNat = 0x7E00 ∧
      (bounded Fmt.binary16 0x6C00#16 .ne 13 false).2 = true := by decide
/-- 2.7. -/
theorem test_narrow_i64 : narrow Fmt.binary32 0xDF000000#32 64 = (-9223372036854775808, false) := by decide

/-! ### Steps -/

/-- A small binary32 state: `ENV` and the host's events. -/
def st (e : Env) (host : List (HostEvent Fmt.binary32)) : State :=
  ⟨Fmt.binary32, { Block.reset Fmt.binary32 with env := e, host := host }⟩

/-- The same with a command in flight. -/
def inFlight (e : Env) (cmd : CmdWord) (x : BitVec 32) (host : List (HostEvent Fmt.binary32)) : State :=
  ⟨Fmt.binary32, ⟨e, true, ⟨cmd, x, e.frm⟩, none, none, host⟩⟩

/-- `ENV` after a step that goes on. -/
def envAfter : Host.Outcome State Fault Refusal → Option Env
  | .next t => some t.block.env
  | .fault _ => none
  | .refused _ => none

/-- The value an HREAD left, after a step that goes on. -/
def dataAfter : Host.Outcome State Fault Refusal → Option HostWord
  | .next t => t.block.hostData
  | .fault _ => none
  | .refused _ => none

/-- The fault of a step that faults. -/
def faultOf : Host.Outcome State Fault Refusal → Option Fault
  | .next _ => none
  | .fault r => some r
  | .refused _ => none

/-- The refusal of a step that is refused. -/
def refusalOf : Host.Outcome State Fault Refusal → Option Refusal
  | .next _ => none
  | .fault _ => none
  | .refused r => some r

/-- P3: RTSI.8 127.6 raises NV and EDOM, and NX stays as it was. -/
theorem test_step_accumulates :
    envAfter (step (st ⟨3#3, false, true, false⟩ [.command 0x0C#32 0x42FF3333#32])) =
      some ⟨3#3, true, true, true⟩ := by decide
/-- 2.9 rows 2, 4, 10: HWRITE. -/
theorem test_hwrite_frm :
    envAfter (step (st Env.reset [.access (.hwrite 0 0xFE#32)])) = some ⟨6#3, false, false, false⟩ := by
  decide
theorem test_hwrite_fflags :
    envAfter (step (st ⟨6#3, true, true, true⟩ [.access (.hwrite 1 2#32)])) =
      some ⟨6#3, false, true, true⟩ := by decide
/-- 2.9 row 5: HREAD. -/
theorem test_hread_fflags :
    dataAfter (step (st ⟨6#3, true, true, false⟩ [.access (.hread 1)])) = some 3#32 := by decide
/-- R32: the host says nothing more, and the command in flight is answered. -/
theorem test_step_answers_at_the_end :
    envAfter (step (inFlight Env.reset 0x0C#32 0x42FF3333#32 [])) = some ⟨3#3, true, false, true⟩ := by
  decide
/-- P4: an illegal word and an undefined mode fault; R142 H3, U6: the collision is refused. -/
theorem test_step_illegal :
    faultOf (step (st Env.reset [.command 6#32 0#32])) = some .illegalCmd := by decide
theorem test_step_undefined_mode :
    faultOf (step (st ⟨6#3, false, false, false⟩ [.command 5#32 0#32])) = some .envModeUndefined := by
  decide
theorem test_step_collision :
    refusalOf (step (inFlight Env.reset 0#32 0#32 [.respond (some (.hwrite 1 0#32))])) =
      some .envWriteCollision := by decide
/-- The first step from reset runs the word placed for it: FROMFP NE, w = 0 is invalid. -/
theorem test_withFetchWord : envAfter (step (State.reset.withFetchWord 32 0x00000038)) =
    some ⟨3#3, true, false, false⟩ := by decide

/-- R57. -/
theorem test_commandText : commandText (.fromfp .ne 8) "200.0" = "FROMFP NE, 8, 200.0" := by decide

/-! ### Witnesses: concrete operands and states that meet the hypotheses of the statements

Each is about binary32, which a block may be built for. -/

theorem test_witness_format : Fmt.binary32.WF := by decide
/-- The smallest and the largest formats of R5. -/
theorem test_witness_format_bounds : Fmt.WF ⟨3, 1⟩ ∧ Fmt.WF ⟨3, 3⟩ ∧ Fmt.WF ⟨15, 16383⟩ := by
  refine ⟨by decide, by decide, ?_, ?_, ?_, ?_⟩ <;> simp [Fmt.bias]

theorem test_witness_EncodedCommandDecodesBack :
    ∀ i ∈ [Instr.trunc, .fromfp .ne 0, .fromfp .na 65535], i.wellFormed = true := by decide
theorem test_witness_LegalWordReencodesToItself : decode 0xFFFF0048#32 = .ok (.fromfp .na 65535) := by
  decide
/-- One word for each reason of R54, at the edges of the fields. -/
theorem test_witness_IllegalWordsAreExactlyThese :
    decode 0x00000006#32 = .error .reservedOp ∧ decode 0x0000000F#32 = .error .reservedOp ∧
    decode 0x00000080#32 = .error .reservedBits ∧ decode 0x00008000#32 = .error .reservedBits ∧
    decode 0x00000015#32 = .error .unusedField ∧ decode 0x00000100#32 = .error .unusedField ∧
    decode 0x80000004#32 = .error .unusedField ∧ decode 0x00000054#32 = .error .badMode ∧
    (st Env.reset [.command 6#32 0#32]).block.busy = false := by decide
theorem test_witness_LegalWordSelectsOneTableRow :
    decode 0x00000044#32 = .ok (.rndm .na) ∧
      ∃ r ∈ opTable, r.mnemonic = "RNDM" ∧ r.selects 0x00000044#32 = true := by decide
theorem test_witness_OpFieldNamesTheSubBlock :
    Instr.trunc.cmdFormat = .c0 ∧ (Instr.rtsi .i64).cmdFormat = .ci ∧ (Instr.rndm .ne).cmdFormat ≠ .ci ∧
      (Instr.rndm .ne).cmdFormat ≠ .cw := by decide

/-- One operand of each class of R63 (zero, subnormal, normal at both ends, infinity, NaN), and one of
the other sign with the same fields. -/
theorem test_witness_ExactlyOneClassHolds :
    isZero Fmt.binary32 0x80000000#32 = true ∧ isSubnormal Fmt.binary32 0x007FFFFF#32 = true ∧
    isNormal Fmt.binary32 0x00800000#32 = true ∧ isNormal Fmt.binary32 0x7F7FFFFF#32 = true ∧
    isInf Fmt.binary32 0xFF800000#32 = true ∧ isNan Fmt.binary32 0x7F800001#32 = true ∧
    bexp Fmt.binary32 0x80800000#32 = bexp Fmt.binary32 0x00800000#32 ∧
    mant Fmt.binary32 0x80800000#32 = mant Fmt.binary32 0x00800000#32 := by decide
theorem test_witness_NegationFlipsOnlyTheSign : isFinite Fmt.binary32 0xC0200000#32 = true := by decide
theorem test_witness_ExponentBoundsTheMagnitude :
    isNormal Fmt.binary32 0x00800000#32 = true ∧ isZero Fmt.binary32 0#32 = true ∧
      isSubnormal Fmt.binary32 1#32 = true := by decide
/-- Exponents 23, -1 and -2, each finite. -/
theorem test_witness_ExponentDecidesIntegrality :
    isFinite Fmt.binary32 0x4B000000#32 = true ∧ exponent Fmt.binary32 0x4B000000#32 = 23 ∧
    isFinite Fmt.binary32 0x3F000000#32 = true ∧ isZero Fmt.binary32 0x3F000000#32 = false ∧
    exponent Fmt.binary32 0x3F000000#32 = -1 ∧ isFinite Fmt.binary32 0x3EFFFFFF#32 = true ∧
    exponent Fmt.binary32 0x3EFFFFFF#32 = -2 := by decide
/-- Exponents 0 and F-1. -/
theorem test_witness_TruncationKeepsTheIntegerPart :
    exponent Fmt.binary32 0x3FFFFFFF#32 = 0 ∧ exponent Fmt.binary32 0x4AFFFFFF#32 = 22 := by decide
theorem test_witness_IncrementAddsOneUnit :
    exponent Fmt.binary32 0xBF800000#32 = 0 ∧ exponent Fmt.binary32 0xCAFFFFFF#32 = 22 := by decide
theorem test_witness_IntegerOfAnIntegralValue :
    isFinite Fmt.binary32 0xC0400000#32 = true ∧ Integral Fmt.binary32 0xC0400000#32 :=
  ⟨by decide, -3, by decide +kernel⟩
theorem test_witness_NumericComparisonIsOfValues :
    isFinite Fmt.binary32 0x3FC00000#32 = true ∧ isFinite Fmt.binary32 0x40200000#32 = true ∧
    isZero Fmt.binary32 0x3FC00000#32 = false ∧ isZero Fmt.binary32 0x40200000#32 = false ∧
    sign Fmt.binary32 0x3FC00000#32 = 0#1 ∧ sign Fmt.binary32 0x40200000#32 = 0#1 := by decide

/-- A finite operand and one that is not, for every statement that says `RoundsTo`. -/
theorem test_witness_RoundsTo :
    isFinite Fmt.binary32 0x7F7FFFFF#32 = true ∧ isFinite Fmt.binary32 0x7F800000#32 = false := by decide
theorem test_witness_FixedRulesEqualFixedModes : (st Env.reset []).fmt.WF := by
  show Fmt.binary32.WF
  decide
/-- ±0.5 and ±0.25: exponents -1 and -2. -/
theorem test_witness_BelowOneFollowsTheTable :
    (isZero Fmt.binary32 0x3F000000#32 = false ∧ exponent Fmt.binary32 0x3F000000#32 = -1 ∧
      sign Fmt.binary32 0x3F000000#32 = 0#1) ∧
    (isZero Fmt.binary32 0xBE800000#32 = false ∧ exponent Fmt.binary32 0xBE800000#32 = -2 ∧
      sign Fmt.binary32 0xBE800000#32 = 1#1) := by decide
/-- The ties 1.5 (exponent 0), 2.5 (exponent 1) and the one of exponent F-1. -/
theorem test_witness_TieGoesToTheEvenNeighbour :
    (exponent Fmt.binary32 0x3FC00000#32 = 0 ∧
      rem Fmt.binary32 0x3FC00000#32 = half Fmt.binary32 0x3FC00000#32) ∧
    (exponent Fmt.binary32 0x40200000#32 = 1 ∧
      rem Fmt.binary32 0x40200000#32 = half Fmt.binary32 0x40200000#32) ∧
    (exponent Fmt.binary32 0x4AFFFFFF#32 = 22 ∧
      rem Fmt.binary32 0x4AFFFFFF#32 = half Fmt.binary32 0x4AFFFFFF#32) := by decide
theorem test_witness_RndcRoundsUnderTheAmbientMode :
    ∀ m ∈ [Mode.dn, .up, .tz, .ne, .na],
      (inFlight ⟨m.code, false, false, false⟩ 5#32 0#32 []).block.latch.frmS = m.code := by decide

/-- 127.5 under NE is 128: out of the signed domain of 8 bits, in that of 9. -/
theorem test_witness_FromfpConvertsIntoTheSignedDomain :
    ¬InDomain Fmt.binary32 .ne 8 false 0x42FF0000#32 ∧ InDomain Fmt.binary32 .ne 9 false 0x42FF0000#32 :=
  ⟨by rintro ⟨-, -, h⟩; revert h; decide +kernel, by decide, by decide, by decide +kernel⟩
/-- −1 is out of the unsigned domain, 255 is in that of 8 bits. -/
theorem test_witness_UfromfpConvertsIntoTheUnsignedDomain :
    ¬InDomain Fmt.binary32 .ne 8 true 0xBF800000#32 ∧ InDomain Fmt.binary32 .ne 8 true 0x437F0000#32 :=
  ⟨by rintro ⟨-, -, h⟩; revert h; decide +kernel, by decide, by decide, by decide +kernel⟩
/-- No width and no infinity is in a domain. -/
theorem test_witness_FromfpxReportsInexactness :
    ¬InDomain Fmt.binary32 .ne 0 false 0x40200000#32 ∧ InDomain Fmt.binary32 .ne 3 false 0x40200000#32 :=
  ⟨by rintro ⟨h, -⟩; revert h; decide, by decide, by decide, by decide +kernel⟩
theorem test_witness_UfromfpxReportsInexactness :
    ¬InDomain Fmt.binary32 .up 1 true 0x7F800000#32 ∧ InDomain Fmt.binary32 .up 1 true 0x00000001#32 :=
  ⟨by rintro ⟨-, h, -⟩; revert h; decide, by decide, by decide, by decide +kernel⟩
theorem test_witness_RangeTestsAreTheStatedRanges :
    isFinite Fmt.binary32 0xC3000000#32 = true ∧ Integral Fmt.binary32 0xC3000000#32 ∧
      inSignedRange Fmt.binary32 0xC3000000#32 8 = true ∧
      inUnsignedRange Fmt.binary32 0xC3000000#32 8 = false :=
  ⟨by decide, ⟨-128, by decide +kernel⟩, by decide, by decide⟩
theorem test_witness_BoundedResultIsAnIntegerOrQnan :
    (bounded Fmt.binary32 0x40200000#32 .ne 3 false).2 = false ∧
      (bounded Fmt.binary32 0x40200000#32 .ne 2 false).2 = true := by decide

theorem test_witness_RtsicRoundsAndClamps :
    (inFlight ⟨0#3, false, false, false⟩ 13#32 0#32 []).block.latch.frmS = Mode.dn.code := by decide
theorem test_witness_RtsicUnderTiesAwayIsRtsi :
    (inFlight ⟨4#3, false, false, false⟩ 13#32 0#32 []).fmt.WF ∧
      (inFlight ⟨4#3, false, false, false⟩ 13#32 0#32 []).frmS = 4#3 :=
  ⟨test_witness_format, rfl⟩
/-- −128 fits 8 bits, 128 does not, an infinity is not finite. -/
theorem test_witness_NarrowingClampsToTheRange :
    isFinite Fmt.binary32 0x7F800000#32 = false ∧ isFinite Fmt.binary32 0xC3000000#32 = true ∧
    (val Fmt.binary32 0xC3000000#32 = -128 ∧ val Fmt.binary32 0x43000000#32 = 128) :=
  ⟨by decide, by decide, by decide +kernel, by decide +kernel⟩
theorem test_witness_IntegerPortIsSignExtended :
    ∃ t, exec (.rtsi .i8) (st Env.reset []) = .next t := ⟨_, rfl⟩

/-- A completed command of every sub-block, the ambient mode being NE. -/
theorem test_witness_SignalsByCommand :
    ∀ i ∈ [Instr.trunc, .rndc, .ufromfp .up 8, .fromfpx .ne 3, .rtsic .i8],
      faultOf (exec i (inFlight Env.reset 0#32 0#32 [])) = none := by decide
/-- The three values of `err`. -/
theorem test_witness_StepIsTheTransaction :
    (transaction Fmt.binary32 5#32 0x40200000#32 Env.reset).1.err = 0#2 ∧
    (transaction Fmt.binary32 6#32 0x40200000#32 Env.reset).1.err = 1#2 ∧
    (transaction Fmt.binary32 5#32 0x40200000#32 ⟨5#3, false, false, false⟩).1.err = 2#2 := by decide
theorem test_witness_SignalsAccumulateByOr :
    (∃ t, exec .trunc (st Env.reset []) = .next t) ∧
      (transaction Fmt.binary32 6#32 0#32 Env.reset).1.err ≠ 0#2 ∧
      (transaction Fmt.binary32 0#32 0#32 Env.reset).1.err = 0#2 :=
  ⟨⟨_, rfl⟩, by decide, by decide⟩
theorem test_witness_UndefinedModeStopsOnlyRndcAndRtsic :
    4 < (inFlight ⟨5#3, false, false, false⟩ 5#32 0#32 []).frmS.toNat ∧
    4 < (inFlight ⟨7#3, false, false, false⟩ 5#32 0#32 []).frmS.toNat ∧
    decode 5#32 = .ok .rndc ∧ decode 13#32 = .ok (.rtsic .i8) ∧
    Instr.trunc ≠ .rndc ∧ (∀ iw ∈ [IntWidth.i8, .i16, .i32, .i64], Instr.trunc ≠ .rtsic iw) := by decide
theorem test_witness_StepRunsTheDecodedInstruction :
    ((st Env.reset [.command 5#32 0#32]).block.busy = false ∧ decode 5#32 = .ok .rndc) ∧
    ((inFlight Env.reset 5#32 0#32 [.respond none]).block.busy = true ∧
      decode (inFlight Env.reset 5#32 0#32 [.respond none]).block.latch.cmd = .ok .rndc) ∧
    ((inFlight Env.reset 5#32 0#32 []).block.busy = true ∧
      (inFlight Env.reset 5#32 0#32 []).block.host = []) := by decide
/-- Every register number, and one past them. -/
theorem test_witness_HostReadsAndWritesEnv :
    ∀ n ∈ [0, 1, 2, 3], (st Env.reset [.access (.hread n)]).block.host = [.access (.hread n)] ∧
      (st Env.reset [.access (.hwrite n 7#32)]).block.host = [.access (.hwrite n 7#32)] := by decide
theorem test_witness_FrmReadsBackAnyValue :
    (st Env.reset [.access (.hwrite 0 0xFF#32), .access (.hread 0)]).block.host =
      .access (.hwrite 0 0xFF#32) :: .access (.hread 0) :: [] := rfl
theorem test_witness_HostOrderIsObserved :
    (st Env.reset [.access (.hwrite 0 1#32), .command 5#32 0x40200000#32, .access (.hread 1)]).block.busy
        = false ∧
      (transaction Fmt.binary32 5#32 0x40200000#32 ⟨1#3, false, false, false⟩).1.err = 0#2 := by decide
theorem test_witness_BusyBlockAcceptsNothing :
    (inFlight Env.reset 0#32 0#32 [.accept 1#32 0#32]).block.busy = true ∧
      (inFlight Env.reset 0#32 0#32 [.accept 1#32 0#32]).block.host = .accept 1#32 0#32 :: [] := by decide
theorem test_witness_SplitTransactionEndsAlike : (st Env.reset []).block.busy = false := rfl
theorem test_witness_ModeWriteInFlightIsNotSampled :
    (st Env.reset [.accept 5#32 0#32, .access (.hwrite 0 7#32), .respond none]).block.busy = false ∧
      (transaction Fmt.binary32 5#32 0#32 Env.reset).1.err = 0#2 := by decide
theorem test_witness_ReadInResponseCycleSeesTheOldEnv :
    (st Env.reset [.accept 0x0C#32 0x42FF3333#32, .respond (some (.hread 1))]).block.busy = false ∧
      (transaction Fmt.binary32 0x0C#32 0x42FF3333#32 Env.reset).1.err = 0#2 := by decide
theorem test_witness_WriteCollisionIsRefused :
    ∀ n ∈ [1, 2], (inFlight Env.reset 0#32 0#32 [.respond (some (.hwrite n 0#32))]).block.busy = true := by
  decide
theorem test_witness_ResetAbandonsTheCommandInFlight :
    (inFlight Env.reset 0#32 0#32 [.reset, .accept 1#32 0#32]).block.busy = true ∧
      (inFlight Env.reset 0#32 0#32 [.reset, .accept 1#32 0#32]).block.host =
        .reset :: .accept 1#32 0#32 :: [] := by decide
/-- A step that changes FRM and clears all three flags by a reset, and one that clears NV by a write. -/
theorem test_witness_OnlyTheHostClearsFlagsOrWritesFrm :
    envAfter (step (st ⟨0#3, true, true, true⟩ [.reset])) = some ⟨3#3, false, false, false⟩ ∧
    envAfter (step (st ⟨0#3, true, true, true⟩ [.access (.hwrite 1 2#32)])) =
      some ⟨0#3, false, true, true⟩ ∧
    envAfter (step (st ⟨0#3, true, true, true⟩ [.access (.hwrite 2 0#32)])) =
      some ⟨0#3, true, true, false⟩ := by decide
theorem test_witness_EveryStepKeepsResponsesCoherent :
    State.reset.Inv ∧ (∃ t, step State.reset = .next t) ∧
      ∃ t, step (st Env.reset [.command 0x0C#32 0x42FF3333#32]) = .next t ∧ t.block.rsp ≠ none :=
  ⟨⟨test_witness_format, fun _ h => nomatch h⟩, ⟨_, rfl⟩, _, rfl, by decide⟩
/-- A host that writes a mode, splits a transaction, resets, and gives another command. -/
theorem test_witness_DisciplinedHostIsNeverStopped :
    (st ⟨7#3, false, false, false⟩
      [.command 0#32 0#32, .access (.hwrite 0 4#32), .accept 5#32 0#32, .respond none, .reset,
        .command 0x0000000D#32 0x7F800000#32]).Disciplined :=
  ⟨by decide, fun h => nomatch h⟩
/-- A command in flight, and a host that reads, presents a command in vain, and writes FRM in the
response cycle. -/
def waiting (w : CmdWord) : State :=
  inFlight Env.reset w 0#32 [.access (.hread 1), .command 0#32 0#32, .respond (some (.hwrite 0 0#32))]

/-- For every word; RTSIC is a legal one, op 6 an illegal one. -/
theorem test_witness_EveryAcceptedCommandResponds :
    (∀ w, (waiting w).block.busy = true ∧ HostEvent.reset ∉ (waiting w).block.host ∧
      ∀ a, HostEvent.respond (some a) ∈ (waiting w).block.host → a.collides = false) ∧
    commandOk (waiting 0x0D#32).block.latch.cmd (waiting 0x0D#32).block.latch.frmS = true ∧
    commandOk (waiting 0x06#32).block.latch.cmd (waiting 0x06#32).block.latch.frmS = false := by
  refine ⟨fun w => ⟨rfl, fun h => ?_, fun a h => ?_⟩, by decide, by decide⟩
  · rcases List.mem_cons.mp h with h | h
    · nomatch h
    rcases List.mem_cons.mp h with h | h
    · nomatch h
    nomatch List.mem_singleton.mp h
  · rcases List.mem_cons.mp h with h | h
    · nomatch h
    rcases List.mem_cons.mp h with h | h
    · nomatch h
    cases List.mem_singleton.mp h
    rfl

end Sys2Proof.Tests
end

section
/-!
The invariant right after reset.  The invariant speaks of a response only where the ports hold one, so
a block with empty ports meets it in every allowed format, and reset empties the ports.
-/

namespace Sys2Proof

/-- The format chosen for the machine's own reset state is one that R5 allows. -/
theorem Config.fmt_wf : Config.fmt.WF := by decide

end Sys2Proof

namespace Sys2Proof.Machine

@[simp] theorem State.resetOf_rsp (f : Fmt) : (State.resetOf f).block.rsp = none := rfl

theorem State.inv_of_rsp_eq_none {s : State} (hwf : s.fmt.WF) (hrsp : s.block.rsp = none) : s.Inv := by
  refine ⟨hwf, fun r hr => ?_⟩
  rw [hrsp] at hr
  nomatch hr

theorem State.resetOf_inv {f : Fmt} (hwf : f.WF) : (State.resetOf f).Inv :=
  State.inv_of_rsp_eq_none hwf (State.resetOf_rsp f)

/-- Settles O55: reset leaves no response on the ports, in an allowed format. -/
theorem resetStateIsCoherent : Obligations.ResetStateIsCoherent :=
  ⟨fun _ hwf => State.resetOf_inv hwf, State.resetOf_inv Config.fmt_wf⟩

end Sys2Proof.Machine
end

section
/-!
What a response is made of.  `operation` is the one function every response comes from, so the facts
about responses (which signals, which port, which result) are proved of it, case by sub-block.
-/

namespace Sys2Proof.Machine

variable {f : Fmt}

/-! ### The constructed NaN -/

@[simp] theorem bexp_pack (s : BitVec 1) (be : BitVec f.E) (m : BitVec f.F) :
    bexp f (pack f s be m) = be := by
  ext i hi
  have hmant : ¬ f.F + i < f.F := by omega
  have hmag : f.F + i < f.E + f.F := by omega
  simp [bexp, pack, BitVec.getLsbD_append, BitVec.getElem_append, hmag]

@[simp] theorem mant_pack (s : BitVec 1) (be : BitVec f.E) (m : BitVec f.F) :
    mant f (pack f s be m) = m := by
  ext i hi
  have hmag : i < f.E + f.F := by omega
  simp [mant, pack, BitVec.getLsbD_append, BitVec.getElem_append, hi, hmag]

/-- `QNAN` is a NaN: the all-ones exponent, and a mantissa bit that the format has. -/
theorem isNan_qnan (hwf : f.WF) : isNan f (qnan f) = true := by
  obtain ⟨-, -, hF, -⟩ := hwf
  have htop : 2 ^ (f.F - 1) < 2 ^ f.F := Nat.pow_lt_pow_right (by decide) (by omega)
  have hexp : (bexp f (qnan f)).toNat = f.emaxb := by
    rw [qnan, bexp_pack, BitVec.toNat_ofNat, Nat.mod_eq_of_lt f.emaxb_lt]
  have hmant : (mant f (qnan f)).toNat = 2 ^ (f.F - 1) := by
    rw [qnan, mant_pack, BitVec.toNat_ofNat, Nat.mod_eq_of_lt htop]
  simp [isNan, isInfOrNan, hexp, hmant]

theorem inexact_qnan (hwf : f.WF) (x : FpWord f) : inexact f x (qnan f) = false := by
  simp [inexact, isNan_qnan hwf]

/-! ### Coherent responses -/

/-- What a response satisfies by itself, wherever it is delivered: the part of `ResponseInv` that does
not speak of the block. -/
structure Response.Coherent (r : Response f) : Prop where
  err_eq : r.err = 0#2
  nx_of_nv : r.nv = true → r.nx = false
  nv_of_edom : r.edom = true → r.nv = true
  port : r.yOut = 0#f.N ∨ r.iOut = 0#64
  qnan_of_nv : r.nv = true → r.edom = false → r.yOut = qnan f

theorem floatResponse_none_coherent (y : FpWord f) :
    (floatResponse f y Signals.none).Coherent where
  err_eq := rfl
  nx_of_nv _ := rfl
  nv_of_edom h := h
  port := .inr rfl
  qnan_of_nv h := nomatch h

/-- A domain error is raised only together with `QNAN` (`43_bounded_conversion.md` R101). -/
theorem bounded_qnan_of_domErr {x : FpWord f} {m : Mode} {w : Nat} {unsigned : Bool}
    (h : (bounded f x m w unsigned).2 = true) : (bounded f x m w unsigned).1 = qnan f := by
  obtain hq | ⟨-, -, -, hr⟩ := bounded_cases f x m w unsigned
  · rw [hq]
  · rw [hr] at h
    nomatch h

theorem boundedResponse_coherent (x : FpWord f) (m : Mode) (w : Nat) (unsigned : Bool) :
    (boundedResponse f x m w unsigned).Coherent where
  err_eq := rfl
  nx_of_nv _ := rfl
  nv_of_edom h := nomatch h
  port := .inr rfl
  qnan_of_nv h _ := bounded_qnan_of_domErr h

/-- A domain error leaves nothing to be inexact: its result is a NaN (`60_exceptions.md` R124). -/
theorem exactResponse_coherent (hwf : f.WF) (x : FpWord f) (m : Mode) (w : Nat) (unsigned : Bool) :
    (exactResponse f x m w unsigned).Coherent where
  err_eq := rfl
  nx_of_nv h := by
    show inexact f x (bounded f x m w unsigned).1 = false
    rw [bounded_qnan_of_domErr h, inexact_qnan hwf]
  nv_of_edom h := nomatch h
  port := .inr rfl
  qnan_of_nv h _ := bounded_qnan_of_domErr h

theorem nativeResponse_coherent (y : FpWord f) (iw : IntWidth) : (nativeResponse f y iw).Coherent where
  err_eq := rfl
  nx_of_nv _ := rfl
  nv_of_edom h := h
  port := .inl rfl
  qnan_of_nv hnv hedom := absurd (hnv.symm.trans hedom) (by decide)

/-! ### The responses of `operation` -/

/-- Every response is one of four shapes, and the sub-block of the command says which. -/
theorem operation_cases {i : Instr} {x : FpWord f} {frmS : BitVec 3} {r : Response f}
    (h : operation f i x frmS = some r) :
    ((i.subBlock = .selector ∨ i.subBlock = .modeRounder) ∧ ∃ y, r = floatResponse f y Signals.none) ∨
    (i.subBlock = .boundedConverter ∧ ∃ m w unsigned, r = boundedResponse f x m w unsigned) ∨
    ((∃ m w, i = .fromfpx m w ∨ i = .ufromfpx m w) ∧
      ∃ m w unsigned, r = exactResponse f x m w unsigned) ∨
    (i.subBlock = .nativeConverter ∧ ∃ y iw, r = nativeResponse f y iw) := by
  cases i with
  | trunc => cases h; exact .inl ⟨.inl rfl, _, rfl⟩
  | ceil => cases h; exact .inl ⟨.inl rfl, _, rfl⟩
  | floor => cases h; exact .inl ⟨.inl rfl, _, rfl⟩
  | round => cases h; exact .inl ⟨.inl rfl, _, rfl⟩
  | rndm m => cases h; exact .inl ⟨.inr rfl, _, rfl⟩
  | rndc =>
    obtain ⟨m, -, rfl⟩ := Option.map_eq_some_iff.mp h
    exact .inl ⟨.inr rfl, _, rfl⟩
  | fromfp m w => cases h; exact .inr (.inl ⟨rfl, _, _, _, rfl⟩)
  | ufromfp m w => cases h; exact .inr (.inl ⟨rfl, _, _, _, rfl⟩)
  | fromfpx m w => cases h; exact .inr (.inr (.inl ⟨⟨m, w, .inl rfl⟩, _, _, _, rfl⟩))
  | ufromfpx m w => cases h; exact .inr (.inr (.inl ⟨⟨m, w, .inr rfl⟩, _, _, _, rfl⟩))
  | rtsi iw => cases h; exact .inr (.inr (.inr ⟨rfl, _, _, rfl⟩))
  | rtsic iw =>
    obtain ⟨m, -, rfl⟩ := Option.map_eq_some_iff.mp h
    exact .inr (.inr (.inr ⟨rfl, _, _, rfl⟩))

theorem operation_err {i : Instr} {x : FpWord f} {frmS : BitVec 3} {r : Response f}
    (h : operation f i x frmS = some r) : r.err = 0#2 := by
  obtain ⟨-, y, rfl⟩ | ⟨-, m, w, unsigned, rfl⟩ | ⟨-, m, w, unsigned, rfl⟩ | ⟨-, y, iw, rfl⟩ :=
    operation_cases h
  all_goals rfl

theorem operation_coherent (hwf : f.WF) {i : Instr} {x : FpWord f} {frmS : BitVec 3} {r : Response f}
    (h : operation f i x frmS = some r) : r.Coherent := by
  obtain ⟨-, y, rfl⟩ | ⟨-, m, w, unsigned, rfl⟩ | ⟨-, m, w, unsigned, rfl⟩ | ⟨-, y, iw, rfl⟩ :=
    operation_cases h
  · exact floatResponse_none_coherent y
  · exact boundedResponse_coherent x m w unsigned
  · exact exactResponse_coherent hwf x m w unsigned
  · exact nativeResponse_coherent y iw

/-- The two rounders raise no signal (`60_exceptions.md` R121). -/
theorem operation_rounder_signals {i : Instr} {x : FpWord f} {frmS : BitVec 3} {r : Response f}
    (h : operation f i x frmS = some r) (hi : i.subBlock = .selector ∨ i.subBlock = .modeRounder) :
    r.nv = false ∧ r.nx = false ∧ r.edom = false := by
  obtain ⟨-, y, rfl⟩ | ⟨hb, -⟩ | ⟨⟨m, w, rfl | rfl⟩, -⟩ | ⟨hb, -⟩ := operation_cases h
  · exact ⟨rfl, rfl, rfl⟩
  · simp [hb] at hi
  · simp [Instr.subBlock] at hi
  · simp [Instr.subBlock] at hi
  · simp [hb] at hi

/-- A bounded conversion raises no domain-error flag (`60_exceptions.md` R121). -/
theorem operation_bounded_edom {i : Instr} {x : FpWord f} {frmS : BitVec 3} {r : Response f}
    (h : operation f i x frmS = some r) (hi : i.subBlock = .boundedConverter) : r.edom = false := by
  obtain ⟨-, y, rfl⟩ | ⟨-, m, w, unsigned, rfl⟩ | ⟨-, m, w, unsigned, rfl⟩ | ⟨hn, -⟩ :=
    operation_cases h
  · rfl
  · rfl
  · rfl
  · simp [hn] at hi

/-- A native conversion raises `nv` and `edom` together and `nx` never (`60_exceptions.md` R121). -/
theorem operation_native_signals {i : Instr} {x : FpWord f} {frmS : BitVec 3} {r : Response f}
    (h : operation f i x frmS = some r) (hi : i.subBlock = .nativeConverter) :
    r.nx = false ∧ r.edom = r.nv := by
  obtain ⟨hr | hr, -⟩ | ⟨hb, -⟩ | ⟨⟨m, w, rfl | rfl⟩, -⟩ | ⟨-, y, iw, rfl⟩ := operation_cases h
  · simp [hr] at hi
  · simp [hr] at hi
  · simp [hb] at hi
  · nomatch hi
  · nomatch hi
  · exact ⟨rfl, rfl⟩

/-- Only FROMFPX and UFROMFPX raise `nx` (`60_exceptions.md` R123). -/
theorem operation_nx {i : Instr} {x : FpWord f} {frmS : BitVec 3} {r : Response f}
    (h : operation f i x frmS = some r) (hi : ∀ m w, i ≠ .fromfpx m w ∧ i ≠ .ufromfpx m w) :
    r.nx = false := by
  obtain ⟨-, y, rfl⟩ | ⟨-, m, w, unsigned, rfl⟩ | ⟨⟨m, w, hx | hx⟩, -⟩ | ⟨-, y, iw, rfl⟩ :=
    operation_cases h
  · rfl
  · rfl
  · exact absurd hx (hi m w).1
  · exact absurd hx (hi m w).2
  · rfl

end Sys2Proof.Machine
end

section
/-!
What a completing command leaves, and what a step that goes on does: the host's event alone takes the
block to a block without a response, and then the command in flight may be answered.
-/

namespace Sys2Proof.Machine

variable {f : Fmt}

/-! ### A response delivered -/

/-- The statements' field-by-field form of a delivered response. -/
theorem Block.respond_eq_afterResponse (b : Block f) (r : Response f) :
    b.respond r = afterResponse b r := rfl

theorem Block.respond_env_of_no_signals (b : Block f) (r : Response f) (hnv : r.nv = false)
    (hnx : r.nx = false) (hedom : r.edom = false) : (b.respond r).env = b.env := by
  simp [Env.accumulate, hnv, hnx, hedom]

/-- A coherent response is coherent with the block that has just delivered it: its signals are in the
sticky bits (`10_state.md` R17). -/
theorem Response.Coherent.respond {r : Response f} (h : r.Coherent) (b : Block f) :
    ResponseInv (b.respond r) r :=
  ⟨h.err_eq, rfl, h.nx_of_nv, h.nv_of_edom, by simp +contextual, by simp +contextual,
    by simp +contextual, h.port, h.qnan_of_nv⟩

/-- An instruction goes on exactly when its operation has a response, and delivers that. -/
theorem exec_eq_next_iff {i : Instr} {s t : State} :
    exec i s = .next t ↔
      ∃ r, operation s.fmt i s.x s.frmS = some r ∧ t = ⟨s.fmt, s.block.respond r⟩ := by
  rw [exec_eq_operation]
  cases operation s.fmt i s.x s.frmS with
  | none => simp
  | some r => simp [State.answer_eq_next_iff]

/-- The command in flight goes on exactly when its word decodes and the operation has a response. -/
theorem answerInFlight_eq_next_iff {b : Block f} {t : State} :
    answerInFlight ⟨f, b⟩ = .next t ↔
      ∃ i r, decode b.latch.cmd = .ok i ∧ operation f i b.latch.x b.latch.frmS = some r ∧
        t = ⟨f, b.respond r⟩ := by
  obtain ⟨i, hi, ha⟩ | ⟨e, he, ha⟩ := answerInFlight_cases ⟨f, b⟩
  · simp only [ha, exec_eq_next_iff, show decode b.latch.cmd = .ok i from hi, Except.ok.injEq,
      exists_and_left, exists_eq_left']
  · simp [ha, show decode b.latch.cmd = .error e from he]

/-! ### The transaction -/

/-- A transaction answers with the operation's response and accumulates it, or with an error response
and leaves `ENV` (`60_exceptions.md` R120). -/
theorem transaction_cases (w : CmdWord) (x : FpWord f) (env : Env) :
    (∃ i r, decode w = .ok i ∧ operation f i x env.frm = some r ∧
      transaction f w x env = (r, env.accumulate r)) ∨
    (∃ φ : Fault, transaction f w x env = (errResponse f φ.errCode, env)) := by
  unfold transaction
  cases decode w with
  | error e => exact .inr ⟨.illegalCmd, rfl⟩
  | ok i =>
    cases h : operation f i x env.frm with
    | none => exact .inr ⟨.envModeUndefined, by simp [h]⟩
    | some r => exact .inl ⟨i, r, rfl, h, by simp [h]⟩

theorem Fault.errCode_ne_zero (φ : Fault) : φ.errCode ≠ 0#2 := by cases φ <;> decide

/-- Of `ENV`, the response of a transaction reads `FRM` alone. -/
theorem transaction_fst_congr (w : CmdWord) (x : FpWord f) {e e' : Env} (h : e.frm = e'.frm) :
    (transaction f w x e).1 = (transaction f w x e').1 := by
  unfold transaction
  rw [h]
  cases decode w with
  | error _ => rfl
  | ok i => dsimp only; cases operation f i x e'.frm <;> rfl

/-- A transaction that answers OK is the operation of a legal word. -/
theorem transaction_ok {w : CmdWord} {x : FpWord f} {env : Env}
    (h : (transaction f w x env).1.err = 0#2) :
    ∃ i, decode w = .ok i ∧ operation f i x env.frm = some (transaction f w x env).1 := by
  obtain ⟨i, r, hi, hr, ht⟩ | ⟨φ, ht⟩ := transaction_cases w x env
  · exact ⟨i, hi, by rw [ht, hr]⟩
  · rw [ht] at h
    exact absurd h φ.errCode_ne_zero

/-! ### The host's event -/

/-- What the host's event does to the block before any response: an access, an acceptance, a reset.
Without an event nothing happens. -/
def Block.hostActs (b : Block f) : Option (HostEvent f) → Block f
  | none => b
  | some (.access a) => b.access a
  | some (.command cmd x) => if b.cmdReady then b.accept cmd x else b
  | some (.accept cmd x) => if b.cmdReady then b.accept cmd x else b
  | some (.respond none) => b
  | some (.respond (some a)) => b.access a
  | some .reset => b.pullReset

variable (b : Block f)

@[simp] theorem Block.hostActs_host (ev : Option (HostEvent f)) : (b.hostActs ev).host = b.host := by
  match ev with
  | none | some (.access a) | some (.respond none) | some (.respond (some a)) | some .reset =>
    simp [Block.hostActs]
  | some (.command cmd x) | some (.accept cmd x) =>
    simp only [Block.hostActs]
    split <;> rfl

theorem Block.hostActs_rsp (ev : Option (HostEvent f)) (h : b.rsp = none) :
    (b.hostActs ev).rsp = none := by
  match ev with
  | none | some (.access a) | some (.respond none) | some (.respond (some a)) | some .reset =>
    simp [Block.hostActs, h]
  | some (.command cmd x) | some (.accept cmd x) =>
    simp only [Block.hostActs]
    split <;> exact h

/-- The latches change only where a command is presented or at a reset (`10_state.md` R19). -/
theorem Block.hostActs_latch (ev : Option (HostEvent f)) :
    (b.hostActs ev).latch = b.latch ∨ ev = some .reset ∨ PresentsCommand ev := by
  match ev with
  | none | some (.respond none) => exact .inl rfl
  | some (.access a) | some (.respond (some a)) => exact .inl (b.access_latch a)
  | some (.command cmd x) => exact .inr (.inr ⟨cmd, x, .inl rfl⟩)
  | some (.accept cmd x) => exact .inr (.inr ⟨cmd, x, .inr rfl⟩)
  | some .reset => exact .inr (.inl rfl)

/-- `ENV` changes only at a reset or by the host's write (`10_state.md` R13 to R16). -/
theorem Block.hostActs_env (ev : Option (HostEvent f)) :
    (b.hostActs ev).env = b.env ∨ ev = some .reset ∨
      ∃ n v, HostWrites ev n v ∧ (b.hostActs ev).env = b.env.hwrite n v := by
  match ev with
  | none | some (.respond none) | some (.access (.hread n)) | some (.respond (some (.hread n))) =>
    exact .inl rfl
  | some (.access (.hwrite n v)) => exact .inr (.inr ⟨n, v, .inl rfl, rfl⟩)
  | some (.respond (some (.hwrite n v))) => exact .inr (.inr ⟨n, v, .inr rfl, rfl⟩)
  | some (.command cmd x) | some (.accept cmd x) =>
    refine .inl ?_
    simp only [Block.hostActs]
    split <;> rfl
  | some .reset => exact .inr (.inl rfl)

/-- The block the host's next event leaves, the ports of the step before cleared. -/
def Block.afterEvent : Block f := { b.clearPorts with host := b.host.tail }.hostActs b.host.head?

@[simp] theorem Block.afterEvent_host : b.afterEvent.host = b.host.tail := by simp [Block.afterEvent]

@[simp] theorem Block.afterEvent_rsp : b.afterEvent.rsp = none := Block.hostActs_rsp _ _ rfl

/-- A response cycle is an access, an answer after an access, or a refused collision
(`70_reset_and_hazards.md` R142 H3). -/
theorem respondCycle_cases (a : Option HostAccess) :
    respondCycle ⟨f, b⟩ a = .next ⟨f, b.hostActs (some (.respond a))⟩ ∨
      respondCycle ⟨f, b⟩ a = answerInFlight ⟨f, b.hostActs (some (.respond a))⟩ ∨
      respondCycle ⟨f, b⟩ a = .refused .envWriteCollision := by
  cases hbusy : b.busy with
  | false =>
    left
    cases a <;> simp [respondCycle, hbusy, hostAccess, Block.hostActs]
  | true =>
    right
    cases a with
    | none => exact .inl (by simp [respondCycle, hbusy, Block.hostActs])
    | some a =>
      cases hcollides : a.collides with
      | false => exact .inl (by simp [respondCycle, hbusy, hcollides, Block.hostActs])
      | true => exact .inr (by simp [respondCycle, hbusy, hcollides])

/-- An event that goes on leaves the block `hostActs` gives, or that block's command answered. -/
theorem runEvent_next_cases {e : HostEvent f} {t : State} (h : runEvent ⟨f, b⟩ e = .next t) :
    t = ⟨f, b.hostActs (some e)⟩ ∨ answerInFlight ⟨f, b.hostActs (some e)⟩ = .next t := by
  match e with
  | .access a => cases h; exact .inl rfl
  | .command cmd x =>
    simp only [runEvent, runCommand] at h
    split at h
    next hready => exact .inr (by simpa [Block.hostActs, hready] using h)
    next hready => cases h; exact .inl (by simp [Block.hostActs, hready])
  | .accept cmd x =>
    simp only [runEvent, acceptCommand] at h
    split at h <;> cases h
    next hready => exact .inl (by simp [Block.hostActs, hready])
    next hready => exact .inl (by simp [Block.hostActs, hready])
  | .respond a =>
    obtain hact | hanswer | hrefused := respondCycle_cases b a
    · exact .inl (Host.Outcome.next.inj (h.symm.trans hact))
    · exact .inr (hanswer.symm.trans h)
    · nomatch hrefused.symm.trans h
  | .reset => cases h; exact .inl rfl

/-- A step that goes on does what the host's event says, and then may answer the command in flight. -/
theorem step_next_cases {t : State} (h : step ⟨f, b⟩ = .next t) :
    t = ⟨f, b.afterEvent⟩ ∨ answerInFlight ⟨f, b.afterEvent⟩ = .next t := by
  cases hhost : b.host with
  | nil =>
    have hafter : b.afterEvent = b.clearPorts := by
      simp [Block.afterEvent, Block.hostActs, Block.clearPorts, hhost]
    rw [hafter]
    refine runEvent_next_cases b.clearPorts (e := .respond none) ?_
    simpa [step, takeEvent, runEvent, hhost] using h
  | cons e rest =>
    have hafter : b.afterEvent = Block.hostActs { b.clearPorts with host := rest } (some e) := by
      simp [Block.afterEvent, hhost]
    rw [hafter]
    exact runEvent_next_cases _ (step_event b rest e hhost ▸ h)

/-- An answer changes neither the events nor the latches nor `FRM`, and clears no flag
(`10_state.md` R17). -/
theorem step_next_frame {t : State} (h : step ⟨f, b⟩ = .next t) :
    ∃ b' : Block f, t = ⟨f, b'⟩ ∧ b'.host = b.host.tail ∧ b'.latch = b.afterEvent.latch ∧
      b'.env.frm = b.afterEvent.env.frm ∧ (b.afterEvent.env.nv = true → b'.env.nv = true) ∧
      (b.afterEvent.env.nx = true → b'.env.nx = true) ∧
      (b.afterEvent.env.edom = true → b'.env.edom = true) := by
  obtain rfl | ha := step_next_cases b h
  · exact ⟨_, rfl, b.afterEvent_host, rfl, rfl, id, id, id⟩
  · obtain ⟨i, r, -, -, rfl⟩ := answerInFlight_eq_next_iff.mp ha
    exact ⟨_, rfl, b.afterEvent_host, rfl, rfl, by simp +contextual, by simp +contextual,
      by simp +contextual⟩

/-- What only register `n` holds changes only at a reset or by the host's write of register `n`. -/
theorem Block.afterEvent_env_changed {α : Type} {part : Env → α} {n : Nat}
    (hframe : ∀ e m v, m ≠ n → part (Env.hwrite e m v) = part e)
    (h : part b.afterEvent.env ≠ part b.env) :
    b.host.head? = some .reset ∨
      ∃ v, HostWrites b.host.head? n v ∧ part b.afterEvent.env = part (b.env.hwrite n v) := by
  obtain hsame | hreset | ⟨m, v, hwrites, henv⟩ :=
    Block.hostActs_env { b.clearPorts with host := b.host.tail } b.host.head?
  · exact absurd (congrArg part hsame) h
  · exact .inl hreset
  · obtain rfl : m = n := by
      by_contra hm
      exact h ((congrArg part henv).trans (hframe b.env m v hm))
    exact .inr ⟨v, hwrites, congrArg part henv⟩

/-- A flag cleared over a step that lets an answer only set it is cleared by a reset or by the host's
write of 0 to its bit. -/
theorem Block.flag_cleared {flag : Env → Bool} {n bit : Nat} {e' : Env}
    (hframe : ∀ e m v, m ≠ n → flag (Env.hwrite e m v) = flag e)
    (hbit : ∀ e v, flag (Env.hwrite e n v) = v.getLsbD bit)
    (hkeep : flag b.afterEvent.env = true → flag e' = true)
    (hset : flag b.env = true) (hclear : flag e' = false) :
    b.host.head? = some .reset ∨ ∃ v, HostWrites b.host.head? n v ∧ v.getLsbD bit = false := by
  have hafter : flag b.afterEvent.env = false := by
    by_contra hne
    rw [hkeep (by simpa using hne)] at hclear
    nomatch hclear
  obtain hreset | ⟨v, hwrites, hv⟩ := b.afterEvent_env_changed hframe (by simp [hafter, hset])
  · exact .inl hreset
  · exact .inr ⟨v, hwrites, by rw [← hbit b.env v, ← hv, hafter]⟩

end Sys2Proof.Machine
end

section
/-!
Steps on a known event, and the statements about `ENV`: what accumulates, what the host reads and
writes, what each step keeps.
-/

namespace Sys2Proof.Machine

variable {f : Fmt} {b : Block f} {rest : List (HostEvent f)}

/-! ### Steps on a known event -/

theorem run_succ_of_step {s s' : State} (h : step s = .next s') (n : Nat) :
    Host.Core.run Sys2Proof.core (n + 1) s = Host.Core.run Sys2Proof.core n s' := by
  have hcore : Sys2Proof.core.step s = .next s' := h
  simp only [Host.Core.run, hcore]

theorem step_hread {n : Nat} (h : b.host = .access (.hread n) :: rest) :
    step ⟨f, b⟩ = .next ⟨f, ⟨b.env, b.busy, b.latch, none, some (b.env.hread n), rest⟩⟩ := by
  rw [step_event b rest _ h]
  rfl

theorem step_hwrite {n : Nat} {v : HostWord} (h : b.host = .access (.hwrite n v) :: rest) :
    step ⟨f, b⟩ = .next ⟨f, ⟨b.env.hwrite n v, b.busy, b.latch, none, none, rest⟩⟩ := by
  rw [step_event b rest _ h]
  rfl

theorem step_accept {w : CmdWord} {x : FpWord f} (hbusy : b.busy = false)
    (h : b.host = .accept w x :: rest) :
    step ⟨f, b⟩ = .next ⟨f, ⟨b.env, true, ⟨w, x, b.env.frm⟩, none, none, rest⟩⟩ := by
  rw [step_event b rest _ h]
  simp [runEvent, acceptCommand, Block.cmdReady, hbusy, Block.accept, Block.clearPorts]

theorem step_respond (hbusy : b.busy = true) (h : b.host = .respond none :: rest) :
    step ⟨f, b⟩ = answerInFlight ⟨f, ⟨b.env, true, b.latch, none, none, rest⟩⟩ := by
  rw [step_event b rest _ h]
  simp [runEvent, respondCycle, hbusy, Block.clearPorts]

/-! ### Register contents -/

@[simp] theorem Env.hread_frm_toNat (e : Env) : (e.hread 0).toNat = e.frm.toNat := by
  simp only [Env.hread, BitVec.toNat_setWidth]
  omega

@[simp] theorem Env.hread_fflags_toNat (e : Env) :
    (e.hread 1).toNat = e.nv.toNat + 2 * e.nx.toNat := by
  have hbits : ∀ nv nx : Bool, ((BitVec.ofBool nx ++ BitVec.ofBool nv).setWidth 32).toNat =
      nv.toNat + 2 * nx.toNat := by decide
  exact hbits e.nv e.nx

@[simp] theorem Env.hread_ferrno_toNat (e : Env) : (e.hread 2).toNat = e.edom.toNat := by
  have hbit : ∀ edom : Bool, ((BitVec.ofBool edom).setWidth 32).toNat = edom.toNat := by decide
  exact hbit e.edom

/-- A register number above 2 does not exist (`10_state.md` R16). -/
theorem Env.hread_of_two_lt (e : Env) {n : Nat} (h : 2 < n) : e.hread n = 0#32 := by
  match n, h with
  | _ + 3, _ => rfl

theorem Env.hwrite_of_two_lt (e : Env) {n : Nat} (v : HostWord) (h : 2 < n) : e.hwrite n v = e := by
  match n, h with
  | _ + 3, _ => rfl

/-! ### The statements -/

/-- Settles O54: the event leaves no response on the ports, and an answer puts a coherent one there. -/
theorem everyStepKeepsResponsesCoherent : Obligations.EveryStepKeepsResponsesCoherent := by
  rintro ⟨f, b⟩ t ⟨hwf, -⟩ h
  obtain rfl | ha := step_next_cases b h
  · exact State.inv_of_rsp_eq_none hwf b.afterEvent_rsp
  · obtain ⟨i, r, -, hr, rfl⟩ := answerInFlight_eq_next_iff.mp ha
    refine ⟨hwf, fun r' hr' => ?_⟩
    cases hr'
    exact (operation_coherent hwf hr).respond b.afterEvent

/-- Settles O38: a response is the operation's, which reads the latches alone, and of `ENV` the
transaction reads `FRM` alone. -/
theorem signalsAccumulateByOr : Obligations.SignalsAccumulateByOr := by
  refine ⟨fun f b i t h => ?_, fun f w x e => ⟨fun herr => ?_, fun herr => ?_, fun nv nx edom => ?_⟩⟩
  · obtain ⟨r, hr, rfl⟩ := exec_eq_next_iff.mp h
    exact ⟨r, operation_err hr, rfl, fun e => exec_eq_next_iff.mpr ⟨r, hr, rfl⟩⟩
  · obtain ⟨i, r, -, hr, ht⟩ | ⟨φ, ht⟩ := transaction_cases w x e
    · rw [ht] at herr
      exact absurd (operation_err hr) herr
    · rw [ht]
  · obtain ⟨i, r, -, hr, ht⟩ | ⟨φ, ht⟩ := transaction_cases w x e
    · rw [ht]
      rfl
    · rw [ht] at herr
      exact absurd herr φ.errCode_ne_zero
  · exact transaction_fst_congr w x rfl

/-- Settles O39: the signals of a response, by the sub-block of its command. -/
theorem signalsByCommand : Obligations.SignalsByCommand := by
  intro f b i t hwf h
  obtain ⟨r, hr, rfl⟩ := exec_eq_next_iff.mp h
  have hcoh := operation_coherent hwf hr
  refine ⟨r, rfl, hcoh.nx_of_nv, hcoh.nv_of_edom, fun hi => ?_, operation_bounded_edom hr,
    operation_native_signals hr, ?_⟩
  · obtain ⟨hnv, hnx, hedom⟩ := operation_rounder_signals hr hi
    exact ⟨hnv, hnx, hedom, b.respond_env_of_no_signals r hnv hnx hedom⟩
  · rintro ⟨m, w, rfl | rfl⟩
    · exact operation_nx hr (by simp)
    · exact operation_nx hr (by simp)

/-- The acceptance latches the mode, the write reaches `ENV` alone, and the answer is the operation
under the latched mode (`10_state.md` R19). -/
theorem run_accept_hwrite_frm_respond {w : CmdWord} {x : FpWord f} {v : HostWord} {i : Instr}
    {r : Response f} (hbusy : b.busy = false)
    (hhost : b.host = .accept w x :: .access (.hwrite 0 v) :: .respond none :: rest)
    (hi : decode w = .ok i) (hr : operation f i x b.env.frm = some r) :
    Host.Core.run Sys2Proof.core 3 ⟨f, b⟩ =
      .next ⟨f, (⟨b.env.hwrite 0 v, true, ⟨w, x, b.env.frm⟩, none, none, rest⟩ : Block f).respond r⟩ := by
  have haccept := step_accept hbusy hhost
  have hwrite := step_hwrite
    (b := ⟨b.env, true, ⟨w, x, b.env.frm⟩, none, none, .access (.hwrite 0 v) :: .respond none :: rest⟩) rfl
  have hanswer := (step_respond
    (b := ⟨b.env.hwrite 0 v, true, ⟨w, x, b.env.frm⟩, none, none, .respond none :: rest⟩) rfl rfl).trans
    (answerInFlight_eq_next_iff.mpr ⟨i, r, hi, hr, rfl⟩)
  exact (run_succ_of_step haccept 2).trans
    ((run_succ_of_step hwrite 1).trans (run_succ_of_step hanswer 0))

/-- Settles O48: a transaction that answers OK is an operation under the mode at acceptance. -/
theorem modeWriteInFlightIsNotSampled : Obligations.ModeWriteInFlightIsNotSampled := by
  intro f b w x v rest hbusy hhost r herr
  obtain ⟨i, hi, hr⟩ := transaction_ok herr
  exact run_accept_hwrite_frm_respond hbusy hhost hi hr

/-- Settles O53: an answer clears no flag and leaves `FRM`, and the event acts by the host's write, an
acceptance or a reset. -/
theorem onlyTheHostClearsFlagsOrWritesFrm : Obligations.OnlyTheHostClearsFlagsOrWritesFrm := by
  intro f b t h
  obtain ⟨b', rfl, hhost, hlatch, hfrm, hnv, hnx, hedom⟩ := step_next_frame b h
  refine ⟨b', rfl, hhost, fun hne => ?_,
    b.flag_cleared (fun e m v hm => (e.hwrite_fflags m v hm).1) (fun _ _ => rfl) hnv,
    b.flag_cleared (fun e m v hm => (e.hwrite_fflags m v hm).2) (fun _ _ => rfl) hnx,
    b.flag_cleared Env.hwrite_edom (fun _ _ => rfl) hedom, fun hne => ?_⟩
  · rw [hfrm] at hne ⊢
    exact b.afterEvent_env_changed Env.hwrite_frm hne
  · rw [hlatch] at hne
    exact (Block.hostActs_latch _ _).resolve_left hne

/-- Settles O43: the step is the access, and the registers hold what R16 names. -/
theorem hostReadsAndWritesEnv : Obligations.HostReadsAndWritesEnv := by
  refine fun f b n v rest => ⟨fun h => ⟨_, step_hread h, ?_, ?_, ?_, fun hn => ?_⟩,
    fun h => ⟨_, step_hwrite h, ?_, ?_, ?_, b.env.hwrite_of_two_lt v⟩⟩
  · rintro rfl
    exact b.env.hread_frm_toNat
  · rintro rfl
    exact b.env.hread_fflags_toNat
  · rintro rfl
    exact b.env.hread_ferrno_toNat
  · rw [b.env.hread_of_two_lt hn]
    rfl
  all_goals
    rintro rfl
    rfl

/-- Settles O44: the write keeps the low three bits, and the read returns them. -/
theorem frmReadsBackAnyValue : Obligations.FrmReadsBackAnyValue := by
  intro f b v rest hhost
  have hwrite := step_hwrite hhost
  refine ⟨_, (run_succ_of_step hwrite 1).trans (run_succ_of_step (step_hread rfl) 0), ?_⟩
  rw [Env.hread_frm_toNat]
  simp [Env.hwrite]

/-- Settles O51: reset writes these values, and the machine's reset state is that of `Config.fmt`. -/
theorem resetStateHasTheStatedValues : Obligations.ResetStateHasTheStatedValues :=
  fun f => ⟨rfl, rfl, rfl, rfl, State.resetOf_rsp f, Config.fmt, rfl⟩

end Sys2Proof.Machine
end

section
/-!
The command in flight and the host.  A word and a sampled mode that keep H1 and H2 of R142 are exactly
those the operation answers.  A busy block waits or answers at each event, so it answers at the latest
when no event is left; and a step of a host that keeps the restrictions leaves such a host again.
-/

namespace Sys2Proof.Machine

variable {f : Fmt} {b : Block f} {rest : List (HostEvent f)}

/-! ### Which commands are answered -/

/-- Only an undefined mode that the command samples leaves an operation without a response
(`60_exceptions.md` R127). -/
theorem operation_isSome (i : Instr) (x : FpWord f) (frmS : BitVec 3) :
    (operation f i x frmS).isSome = (!i.readsAmbientMode || decide (frmS.toNat ≤ 4)) := by
  have hmode : (Mode.ofCode frmS).isSome = decide (frmS.toNat ≤ 4) := by
    revert frmS
    decide
  cases i with
  | rndc | rtsic iw => simp [operation, Instr.readsAmbientMode, hmode]
  | _ => rfl

/-- H1 and H2 of R142 hold of exactly the commands that have a response, whatever the operand. -/
theorem commandOk_iff {w : CmdWord} {frmS : BitVec 3} (x : FpWord f) :
    commandOk w frmS = true ↔ ∃ i r, decode w = .ok i ∧ operation f i x frmS = some r := by
  unfold commandOk
  cases decode w with
  | error e => simp
  | ok i => simp [← operation_isSome i x frmS, Option.isSome_iff_exists]

/-- A command that breaks H1 or H2 is answered with a fault (`60_exceptions.md` R126, R127). -/
theorem answerInFlight_fault (hok : commandOk b.latch.cmd b.latch.frmS = false) :
    ∃ e, answerInFlight ⟨f, b⟩ = .fault e := by
  obtain ⟨i, hi, ha⟩ | ⟨_, -, ha⟩ := answerInFlight_cases ⟨f, b⟩
  · obtain ⟨r, hr⟩ | ⟨-, -, hfault⟩ := exec_cases i ⟨f, b⟩
    · obtain ⟨i, r, hi, hr, -⟩ := answerInFlight_eq_next_iff.mp (ha.trans hr)
      rw [(commandOk_iff b.latch.x).mpr ⟨i, r, hi, hr⟩] at hok
      nomatch hok
    · exact ⟨_, ha.trans hfault⟩
  · exact ⟨_, ha⟩

/-! ### Single steps and register bits -/

theorem run_one (s : State) : Host.Core.run Sys2Proof.core 1 s = step s := by
  have hcore : Sys2Proof.core.step s = step s := rfl
  simp only [Host.Core.run, hcore]
  cases step s <;> rfl

theorem answerInFlight_of_decode {i : Instr} (hi : decode b.latch.cmd = .ok i) :
    answerInFlight ⟨f, b⟩ = exec i ⟨f, b⟩ := by
  simp only [answerInFlight, hi]

theorem Env.hread_fflags_getLsbD (e : Env) :
    (e.hread 1).getLsbD 0 = e.nv ∧ (e.hread 1).getLsbD 1 = e.nx := by
  have hbits : ∀ nv nx : Bool,
      ((BitVec.ofBool nx ++ BitVec.ofBool nv).setWidth 32).getLsbD 0 = nv ∧
      ((BitVec.ofBool nx ++ BitVec.ofBool nv).setWidth 32).getLsbD 1 = nx := by decide
  exact hbits e.nv e.nx

theorem Block.clearPorts_of_busy (hbusy : b.busy = true) :
    b.clearPorts = ⟨b.env, true, b.latch, none, none, b.host⟩ := by
  simp [Block.clearPorts, hbusy]

/-! ### Events at a ready and at a busy block -/

theorem runCommand_of_ready (hbusy : b.busy = false) (w : CmdWord) (x : FpWord f) :
    runCommand ⟨f, b⟩ w x = answerInFlight ⟨f, b.accept w x⟩ := by
  simp [runCommand, Block.cmdReady, hbusy]

/-- A command presented while one is in flight is not accepted (`70_reset_and_hazards.md` R142 H7). -/
theorem runCommand_of_busy (hbusy : b.busy = true) (w : CmdWord) (x : FpWord f) :
    runCommand ⟨f, b⟩ w x = .next ⟨f, b⟩ := by
  simp [runCommand, Block.cmdReady, hbusy]

theorem acceptCommand_of_ready (hbusy : b.busy = false) (w : CmdWord) (x : FpWord f) :
    acceptCommand ⟨f, b⟩ w x = .next ⟨f, b.accept w x⟩ := by
  simp [acceptCommand, Block.cmdReady, hbusy]

theorem acceptCommand_of_busy (hbusy : b.busy = true) (w : CmdWord) (x : FpWord f) :
    acceptCommand ⟨f, b⟩ w x = .next ⟨f, b⟩ := by
  simp [acceptCommand, Block.cmdReady, hbusy]

theorem step_command {w : CmdWord} {x : FpWord f} (hbusy : b.busy = false)
    (h : b.host = .command w x :: rest) :
    step ⟨f, b⟩ = answerInFlight ⟨f, ⟨b.env, true, ⟨w, x, b.env.frm⟩, none, none, rest⟩⟩ := by
  rw [step_event b rest _ h]
  exact runCommand_of_ready (b := { b.clearPorts with host := rest }) hbusy w x

theorem respondCycle_none_of_busy (hbusy : b.busy = true) :
    respondCycle ⟨f, b⟩ none = answerInFlight ⟨f, b⟩ := by
  simp [respondCycle, hbusy]

/-- An event other than a reset leaves the command in flight as it is (`10_state.md` R19). -/
theorem Block.hostActs_of_busy (hbusy : b.busy = true) {ev : Option (HostEvent f)}
    (hreset : ev ≠ some .reset) :
    (b.hostActs ev).busy = true ∧ (b.hostActs ev).latch = b.latch := by
  match ev with
  | none | some (.respond none) => exact ⟨hbusy, rfl⟩
  | some (.access a) | some (.respond (some a)) => simp [Block.hostActs, hbusy]
  | some (.command cmd x) | some (.accept cmd x) => simp [Block.hostActs, Block.cmdReady, hbusy]
  | some .reset => exact absurd rfl hreset

/-- A busy block waits through every event that is neither a reset nor its response cycle, and answers
in the response cycle unless a write collides there. -/
theorem runEvent_of_busy (hbusy : b.busy = true) {e : HostEvent f} (hreset : e ≠ .reset)
    (hcollides : ∀ a, e = .respond (some a) → a.collides = false) :
    runEvent ⟨f, b⟩ e = .next ⟨f, b.hostActs (some e)⟩ ∨
      runEvent ⟨f, b⟩ e = answerInFlight ⟨f, b.hostActs (some e)⟩ := by
  match e with
  | .access a => exact .inl rfl
  | .command w x =>
    exact .inl (by simp [runEvent, runCommand_of_busy hbusy, Block.hostActs, Block.cmdReady, hbusy])
  | .accept w x =>
    exact .inl (by simp [runEvent, acceptCommand_of_busy hbusy, Block.hostActs, Block.cmdReady, hbusy])
  | .respond none => exact .inr (respondCycle_none_of_busy hbusy)
  | .respond (some a) =>
    exact .inr (by simp [runEvent, respondCycle, hbusy, hcollides a rfl, Block.hostActs])
  | .reset => exact absurd rfl hreset

/-- A busy block takes the host's next event and waits, or answers. -/
theorem step_of_busy (hbusy : b.busy = true) {e : HostEvent f} (hhost : b.host = e :: rest)
    (hreset : HostEvent.reset ∉ b.host)
    (hcollides : ∀ a, HostEvent.respond (some a) ∈ b.host → a.collides = false) :
    step ⟨f, b⟩ = .next ⟨f, b.afterEvent⟩ ∨ step ⟨f, b⟩ = answerInFlight ⟨f, b.afterEvent⟩ := by
  have hevent : b.afterEvent = Block.hostActs { b.clearPorts with host := rest } (some e) := by
    simp [Block.afterEvent, hhost]
  have hmem : e ∈ b.host := hhost ▸ List.mem_cons_self
  rw [step_event b rest e hhost, hevent]
  exact runEvent_of_busy (b := { b.clearPorts with host := rest }) hbusy
    (fun h => hreset (h ▸ hmem)) (fun a h => hcollides a (h ▸ hmem))

theorem Block.afterEvent_of_busy (hbusy : b.busy = true) (hreset : HostEvent.reset ∉ b.host) :
    b.afterEvent.busy = true ∧ b.afterEvent.latch = b.latch :=
  Block.hostActs_of_busy (b := { b.clearPorts with host := b.host.tail }) hbusy
    fun h => hreset (List.mem_of_head? h)

/-! ### The command in flight is answered -/

/-- The run of `j` steps goes on, with the command still in flight and no response. -/
def Block.WaitsAt (b : Block f) (j : Nat) : Prop :=
  ∃ b' : Block f, Host.Core.run Sys2Proof.core j ⟨f, b⟩ = .next ⟨f, b'⟩ ∧ b'.busy = true ∧ b'.rsp = none

/-- A busy block waits through some of the host's events, without a response, and then answers the
command it had in flight (`20_memory.md` R32). -/
theorem exists_answering_step (hbusy : b.busy = true) (hreset : HostEvent.reset ∉ b.host)
    (hcollides : ∀ a, HostEvent.respond (some a) ∈ b.host → a.collides = false) :
    ∃ k ≤ b.host.length, (∀ j, 1 ≤ j → j ≤ k → b.WaitsAt j) ∧
      ∃ c : Block f, c.latch = b.latch ∧
        Host.Core.run Sys2Proof.core (k + 1) ⟨f, b⟩ = answerInFlight ⟨f, c⟩ := by
  induction hhost : b.host generalizing b with
  | nil => exact ⟨0, Nat.zero_le _, fun j hj hj0 => absurd hj (by omega), b.clearPorts, rfl,
      (run_one _).trans (step_last_response b hhost hbusy)⟩
  | cons e rest ih =>
    obtain ⟨hbusy', hlatch⟩ := Block.afterEvent_of_busy hbusy hreset
    obtain hwait | hanswer := step_of_busy hbusy hhost hreset hcollides
    · have hrest : b.afterEvent.host = rest := by simp [hhost]
      obtain ⟨k, hk, hwaits, c, hc, hrun⟩ := ih hbusy'
        (fun h => hreset (hhost ▸ List.mem_cons_of_mem e (hrest ▸ h)))
        (fun a h => hcollides a (hhost ▸ List.mem_cons_of_mem e (hrest ▸ h))) hrest
      refine ⟨k + 1, Nat.succ_le_succ hk, fun j hj hjk => ?_, c, hc.trans hlatch,
        (run_succ_of_step hwait (k + 1)).trans hrun⟩
      match j, hj with
      | 1, _ => exact ⟨_, (run_one _).trans hwait, hbusy', b.afterEvent_rsp⟩
      | j + 2, _ =>
        obtain ⟨b', hb', hwaiting⟩ := hwaits (j + 1) (by omega) (by omega)
        exact ⟨b', (run_succ_of_step hwait (j + 1)).trans hb', hwaiting⟩
    · exact ⟨0, Nat.zero_le _, fun j hj hj0 => absurd hj (by omega), b.afterEvent, hlatch,
        (run_one _).trans hanswer⟩

/-! ### The host that keeps the restrictions -/

theorem Block.access_env_frm (b : Block f) (a : HostAccess) :
    (b.access a).env.frm = a.frmAfter b.env.frm := by
  match a with
  | .hread n => rfl
  | .hwrite 0 v => rfl
  | .hwrite (n + 1) v => exact b.env.hwrite_frm (n + 1) v n.succ_ne_zero

theorem State.disciplined_of_ready (hbusy : b.busy = false)
    (hhost : disciplined b.env.frm false b.host = true) : State.Disciplined ⟨f, b⟩ :=
  ⟨hbusy ▸ hhost, fun h => nomatch hbusy.symm.trans h⟩

/-- The answer to a command that keeps H1 and H2 leaves the block ready for the host's next event. -/
theorem answerInFlight_disciplined (hok : commandOk b.latch.cmd b.latch.frmS = true)
    (hhost : disciplined b.env.frm false b.host = true) :
    ∃ t, answerInFlight ⟨f, b⟩ = .next t ∧ t.Disciplined := by
  obtain ⟨i, r, hi, hr⟩ := (commandOk_iff b.latch.x).mp hok
  exact ⟨_, answerInFlight_eq_next_iff.mpr ⟨i, r, hi, hr, rfl⟩, State.disciplined_of_ready rfl hhost⟩

/-- Every event of a host that keeps the restrictions leaves such a host. -/
theorem runEvent_disciplined {e : HostEvent f}
    (hhost : disciplined b.env.frm b.busy (e :: b.host) = true)
    (hlatch : b.busy = true → commandOk b.latch.cmd b.latch.frmS = true) :
    ∃ t, runEvent ⟨f, b⟩ e = .next t ∧ t.Disciplined := by
  match e with
  | .access a =>
    obtain ⟨hbusy, hrest⟩ : b.busy = false ∧ disciplined (a.frmAfter b.env.frm) false b.host = true := by
      simpa [disciplined] using hhost
    exact ⟨_, rfl, State.disciplined_of_ready (by simpa using hbusy)
      (by simpa [Block.access_env_frm] using hrest)⟩
  | .command w x =>
    obtain ⟨hbusy, hok, hrest⟩ : b.busy = false ∧ commandOk w b.env.frm = true ∧
        disciplined b.env.frm false b.host = true := by
      simpa [disciplined, and_assoc] using hhost
    obtain ⟨t, hanswer, ht⟩ := answerInFlight_disciplined (b := b.accept w x) hok hrest
    exact ⟨t, (runCommand_of_ready hbusy w x).trans hanswer, ht⟩
  | .accept w x =>
    obtain ⟨hbusy, hok, hrest⟩ : b.busy = false ∧ commandOk w b.env.frm = true ∧
        disciplined b.env.frm true b.host = true := by
      simpa [disciplined, and_assoc] using hhost
    exact ⟨_, acceptCommand_of_ready hbusy w x, hrest, fun _ => hok⟩
  | .respond none =>
    obtain ⟨hbusy, hrest⟩ : b.busy = true ∧ disciplined b.env.frm false b.host = true := by
      simpa [disciplined] using hhost
    obtain ⟨t, hanswer, ht⟩ := answerInFlight_disciplined (hlatch hbusy) hrest
    exact ⟨t, (respondCycle_none_of_busy hbusy).trans hanswer, ht⟩
  | .respond (some a) => simp [disciplined] at hhost
  | .reset => exact ⟨_, rfl, State.disciplined_of_ready rfl hhost⟩

/-- A host that keeps the restrictions is not stopped by a step, and goes on keeping them. -/
theorem step_disciplined {s : State} (h : s.Disciplined) : ∃ t, step s = .next t ∧ t.Disciplined := by
  obtain ⟨f, b⟩ := s
  obtain ⟨hdisc, hlatch⟩ := h
  cases hhost : b.host with
  | nil =>
    cases hbusy : b.busy with
    | false =>
      exact ⟨_, step_idle b hhost hbusy, State.disciplined_of_ready hbusy (by simp [hhost, disciplined])⟩
    | true =>
      rw [step_last_response b hhost hbusy]
      exact answerInFlight_disciplined (hlatch hbusy) (by simp [hhost, disciplined])
  | cons e rest =>
    rw [step_event b rest e hhost]
    exact runEvent_disciplined (b := { b.clearPorts with host := rest }) (hhost ▸ hdisc) hlatch

/-! ### The statements -/

/-- Settles O56: the discipline is kept by every step, so it holds along the run. -/
theorem disciplinedHostIsNeverStopped : Obligations.DisciplinedHostIsNeverStopped := by
  intro s n h
  induction n generalizing s with
  | zero => exact ⟨s, rfl⟩
  | succ n ih =>
    obtain ⟨t, hstep, ht⟩ := step_disciplined h
    obtain ⟨u, hrun⟩ := ih t ht
    exact ⟨u, (run_succ_of_step hstep n).trans hrun⟩

/-- Settles O57: the block waits for its response cycle, and the operation answers exactly the commands
that keep H1 and H2. -/
theorem everyAcceptedCommandResponds : Obligations.EveryAcceptedCommandResponds := by
  intro f b hbusy hreset hcollides
  obtain ⟨k, hk, hwaits, c, hc, hrun⟩ := exists_answering_step hbusy hreset hcollides
  rw [← hc]
  refine ⟨fun hok => ?_, fun hok => ⟨k, hk, ?_⟩⟩
  · obtain ⟨i, r, hi, hr⟩ := (commandOk_iff c.latch.x).mp hok
    have hanswer := answerInFlight_eq_next_iff.mpr ⟨i, r, hi, hr, rfl⟩
    exact ⟨i, r, hi, hr, k, hk, hwaits, _, hrun.trans hanswer, rfl, rfl⟩
  · obtain ⟨e, he⟩ := answerInFlight_fault hok
    exact ⟨e, hrun.trans he⟩

/-- Settles O42: a step that answers runs the instruction its latched word decodes to. -/
theorem stepRunsTheDecodedInstruction : Obligations.StepRunsTheDecodedInstruction := by
  refine fun f b i w x rest => ⟨fun hbusy hhost hi => ?_, fun hbusy hhost hi => ?_,
    fun hbusy hhost hi => ?_⟩
  · exact (step_command hbusy hhost).trans (answerInFlight_of_decode hi)
  · exact (step_respond hbusy hhost).trans (answerInFlight_of_decode hi)
  · rw [step_last_response b hhost hbusy, Block.clearPorts_of_busy hbusy, hhost]
    exact answerInFlight_of_decode hi

/-- Settles O45: the command latches the mode just written, and its answer has accumulated its signals
when the read comes. -/
theorem hostOrderIsObserved : Obligations.HostOrderIsObserved := by
  intro f b w x v rest hbusy hhost r herr
  obtain ⟨i, hi, hr⟩ := transaction_ok herr
  have hwrite := step_hwrite hhost
  have hcommand := (step_command (b := ⟨b.env.hwrite 0 v, b.busy, b.latch, none, none,
    .command w x :: .access (.hread 1) :: rest⟩) hbusy rfl).trans
    (answerInFlight_eq_next_iff.mpr ⟨i, r, hi, hr, rfl⟩)
  exact ⟨_, (run_succ_of_step hwrite 1).trans ((run_one _).trans hcommand), rfl,
    _, _, step_hread rfl, rfl, Env.hread_fflags_getLsbD _⟩

/-- Settles O46: the busy block takes the event and does nothing with it. -/
theorem busyBlockAcceptsNothing : Obligations.BusyBlockAcceptsNothing := by
  intro f b w x rest hbusy hhost
  obtain hcommand | haccept := hhost
  · rw [step_event b rest _ hcommand, Block.clearPorts_of_busy hbusy]
    exact runCommand_of_busy rfl w x
  · rw [step_event b rest _ haccept, Block.clearPorts_of_busy hbusy]
    exact acceptCommand_of_busy rfl w x

/-- Settles O47: both ways answer the same latched block. -/
theorem splitTransactionEndsAlike : Obligations.SplitTransactionEndsAlike := by
  intro f b w x rest hbusy
  have haccept := step_accept (b := { b with host := .accept w x :: .respond none :: rest }) hbusy rfl
  have hcommand := step_command (b := { b with host := .command w x :: rest }) hbusy rfl
  rw [run_succ_of_step haccept 1, run_one, run_one, hcommand]
  exact step_respond rfl rfl

/-- Settles O50: the write collides with the accumulation. -/
theorem writeCollisionIsRefused : Obligations.WriteCollisionIsRefused := by
  intro f b n v rest hbusy hhost hn
  have hcollides : (HostAccess.hwrite n v).collides = true := by simpa [HostAccess.collides] using hn
  rw [step_event b rest _ hhost]
  simp [runEvent, respondCycle, hbusy, hcollides]

end Sys2Proof.Machine
end

section
/-!
Legal words (`30_encoding.md` R47, R48, R53, R54).  A legal word is one whose op code is a command's and
whose other fields are those the command's format allows.  Every such word is the word of a command,
`decode` accepts no other, and the rows of the opcode table select the same words.
-/

namespace Sys2Proof

variable {w : CmdWord} {i : Instr}

/-! ### The fields a format allows -/

/-- The formats that use the `mode` field (R47). -/
def CmdFormat.usesMode : CmdFormat → Bool
  | .c0 | .ci => false
  | .cm | .cw => true

/-- The fields of `w` are as format `k` allows: an unused field is zero, a used `mode` names one. -/
def CmdFormat.Allows (k : CmdFormat) (w : CmdWord) : Prop :=
  rsv7Field w = 0#1 ∧ rsv10Field w = 0#6 ∧
    (k.usesMode = false → modeField w = 0#3) ∧ (k ≠ .ci → iselField w = 0#2) ∧
    (k ≠ .cw → widthField w = 0#16) ∧ (k.usesMode = true → (modeField w).toNat ≤ 4)

theorem Mode.code_toNat_le (m : Mode) : m.code.toNat ≤ 4 := by cases m <;> decide

theorem Mode.toNat_le_of_ofCode_eq_some {c : BitVec 3} {m : Mode} (h : Mode.ofCode c = some m) :
    c.toNat ≤ 4 :=
  (Mode.ofCode_eq_some_iff c m).mp h ▸ m.code_toNat_le

theorem Mode.exists_code_eq {c : BitVec 3} (h : c.toNat ≤ 4) : ∃ m : Mode, m.code = c := by
  cases hm : Mode.ofCode c with
  | some m => exact ⟨m, ((Mode.ofCode_eq_some_iff c m).mp hm).symm⟩
  | none => exact absurd ((Mode.ofCode_eq_none_iff c).mp hm) (by omega)

theorem opField_encode (i : Instr) : opField (encode i) = i.opcode := (Laws.EncodeFields.of_fields i).1

/-- The word of a command has the fields its format allows. -/
theorem Instr.allows_encode (i : Instr) : i.cmdFormat.Allows (encode i) := by
  obtain ⟨-, h7, h10, hc0, hci, hisel, hwidth⟩ := Laws.EncodeFields.of_fields i
  refine ⟨h7, h10, fun h => ?_, hisel, hwidth, fun _ => ?_⟩
  · cases hk : i.cmdFormat with
    | c0 => exact hc0 hk
    | ci => exact hci hk
    | cm | cw => simp [hk, CmdFormat.usesMode] at h
  · cases i <;> simp [encode, Mode.code_toNat_le]

/-! ### Legal words are the words of commands -/

/-- An allowed word of a format is assembled from its op code and the fields the format uses. -/
theorem CmdFormat.Allows.eq_commandWord {k : CmdFormat} (h : k.Allows w) :
    w = commandWord (if k = .cw then widthField w else 0#16) (if k = .ci then iselField w else 0#2)
      (if k.usesMode then modeField w else 0#3) (opField w) := by
  obtain ⟨h7, h10, hmode, hisel, hwidth, -⟩ := h
  rw [ite_eq_left_iff.mpr fun hk => (hwidth hk).symm, ite_eq_left_iff.mpr fun hk => (hisel hk).symm,
    ite_eq_left_iff.mpr fun hk => (hmode (Bool.eq_false_of_not_eq_true hk)).symm,
    commandWord_fields w h7 h10]

/-- The command of `i`'s op code with the given parameters, of which `i`'s format uses some. -/
def Instr.withParams (m : Mode) (n : Nat) (iw : IntWidth) : Instr → Instr
  | .rndm _ => .rndm m
  | .fromfp _ _ => .fromfp m n
  | .ufromfp _ _ => .ufromfp m n
  | .fromfpx _ _ => .fromfpx m n
  | .ufromfpx _ _ => .ufromfpx m n
  | .rtsi _ => .rtsi iw
  | .rtsic _ => .rtsic iw
  | .trunc => .trunc
  | .ceil => .ceil
  | .floor => .floor
  | .round => .round
  | .rndc => .rndc

theorem encode_withParams (i : Instr) (m : Mode) (n : Nat) (iw : IntWidth) :
    encode (i.withParams m n iw) =
      commandWord (if i.cmdFormat = .cw then BitVec.ofNat 16 n else 0#16)
        (if i.cmdFormat = .ci then iw.isel else 0#2)
        (if i.cmdFormat.usesMode then m.code else 0#3) i.opcode := by
  cases i <;> rfl

theorem wellFormed_withParams (i : Instr) (m : Mode) {n : Nat} (iw : IntWidth) (hn : n < 2 ^ 16) :
    (i.withParams m n iw).wellFormed = true := by
  have hfits : widthFits n = true := decide_eq_true hn
  cases i <;> simp [Instr.withParams, Instr.wellFormed, hfits]

/-- A word with a command's op code and the fields its format allows is the word of a command. -/
theorem exists_encode_eq (hop : opField w = i.opcode) (h : i.cmdFormat.Allows w) :
    ∃ j : Instr, j.wellFormed = true ∧ encode j = w := by
  obtain ⟨m, hm⟩ : ∃ m : Mode, i.cmdFormat.usesMode = true → m.code = modeField w := by
    by_cases hk : i.cmdFormat.usesMode = true
    · obtain ⟨-, -, -, -, -, hle⟩ := h
      obtain ⟨m, hm⟩ := Mode.exists_code_eq (hle hk)
      exact ⟨m, fun _ => hm⟩
    · exact ⟨.dn, fun hk' => absurd hk' hk⟩
  refine ⟨i.withParams m (widthField w).toNat (IntWidth.ofIsel (iselField w)),
    wellFormed_withParams i m _ (widthField w).isLt, ?_⟩
  rw [encode_withParams, BitVec.ofNat_toNat, BitVec.setWidth_eq, IntWidth.isel_ofIsel, ← hop,
    ite_congr rfl hm fun _ => rfl]
  exact h.eq_commandWord.symm

/-! ### What decodes -/

/-- Decoding the word of a command gives the command again. -/
theorem decode_encode (hi : i.wellFormed = true) : decode (encode i) = .ok i := by
  have hwidth {n : Nat} (hn : widthFits n = true) : (BitVec.ofNat 16 n).toNat = n :=
    Nat.mod_eq_of_lt (of_decide_eq_true hn)
  cases i with
  | trunc | ceil | floor | round | rndc => simp [decode, encode, decodeC0]
  | rndm m => simp [decode, encode, decodeCM]
  | fromfp m n | ufromfp m n | fromfpx m n | ufromfpx m n =>
    simp [decode, encode, decodeCW, hwidth hi]
  | rtsi iw | rtsic iw => simp [decode, encode, decodeCI]

/-- A command of each op code. -/
def Instr.ofEachOpcode : List Instr :=
  [.trunc, .ceil, .floor, .round, .rndm .dn, .rndc, .fromfp .dn 0, .ufromfp .dn 0, .fromfpx .dn 0,
    .ufromfpx .dn 0, .rtsi .i8, .rtsic .i8]

/-- Every op code is reserved (R54) or a command's. -/
theorem opcode_cases (op : BitVec 4) : op.toNat ∈ [6, 7, 14, 15] ∨ ∃ i : Instr, op = i.opcode := by
  have hops : ∀ op : BitVec 4, op.toNat ∈ [6, 7, 14, 15] ∨
      op ∈ Instr.ofEachOpcode.map Instr.opcode := by decide
  exact (hops op).imp_right fun h => (List.mem_map.mp h).imp fun _ hi => hi.2.symm

theorem decode_of_reserved (hop : (opField w).toNat ∈ [6, 7, 14, 15]) : ∃ e, decode w = .error e := by
  unfold decode
  split
  · exact ⟨_, rfl⟩
  · simp only [List.mem_cons, List.not_mem_nil, or_false] at hop
    obtain hop | hop | hop | hop := hop <;> rw [hop] <;> exact ⟨_, rfl⟩

/-! Each format's decoder accepts only words whose fields the format allows. -/

theorem allows_of_decodeC0 (h7 : rsv7Field w = 0#1) (h10 : rsv10Field w = 0#6) {j : Instr}
    (h : decodeC0 w i = .ok j) : CmdFormat.c0.Allows w := by
  unfold decodeC0 at h
  split at h
  · nomatch h
  · rename_i hzero
    obtain ⟨hmode, hisel, hwidth⟩ : modeField w = 0#3 ∧ iselField w = 0#2 ∧ widthField w = 0#16 := by
      simpa using hzero
    exact ⟨h7, h10, fun _ => hmode, fun _ => hisel, fun _ => hwidth, nofun⟩

theorem allows_of_decodeCM (h7 : rsv7Field w = 0#1) (h10 : rsv10Field w = 0#6) {mk : Mode → Instr}
    {j : Instr} (h : decodeCM w mk = .ok j) : CmdFormat.cm.Allows w := by
  unfold decodeCM at h
  split at h
  · nomatch h
  · rename_i hzero
    obtain ⟨hisel, hwidth⟩ : iselField w = 0#2 ∧ widthField w = 0#16 := by simpa using hzero
    split at h
    · rename_i m hm
      exact ⟨h7, h10, nofun, fun _ => hisel, fun _ => hwidth,
        fun _ => Mode.toNat_le_of_ofCode_eq_some hm⟩
    · nomatch h

theorem allows_of_decodeCW (h7 : rsv7Field w = 0#1) (h10 : rsv10Field w = 0#6)
    {mk : Mode → Nat → Instr} {j : Instr} (h : decodeCW w mk = .ok j) : CmdFormat.cw.Allows w := by
  unfold decodeCW at h
  split at h
  · nomatch h
  · rename_i hzero
    split at h
    · rename_i m hm
      exact ⟨h7, h10, nofun, fun _ => not_ne_iff.mp hzero, fun hcw => absurd rfl hcw,
        fun _ => Mode.toNat_le_of_ofCode_eq_some hm⟩
    · nomatch h

theorem allows_of_decodeCI (h7 : rsv7Field w = 0#1) (h10 : rsv10Field w = 0#6)
    {mk : IntWidth → Instr} {j : Instr} (h : decodeCI w mk = .ok j) : CmdFormat.ci.Allows w := by
  unfold decodeCI at h
  split at h
  · nomatch h
  · rename_i hzero
    obtain ⟨hmode, hwidth⟩ : modeField w = 0#3 ∧ widthField w = 0#16 := by simpa using hzero
    exact ⟨h7, h10, fun _ => hmode, fun hci => absurd rfl hci, fun _ => hwidth, nofun⟩

/-- A word that decodes has the fields that the format of its op code allows. -/
theorem allows_of_decode {j : Instr} (hop : opField w = i.opcode) (h : decode w = .ok j) :
    i.cmdFormat.Allows w := by
  unfold decode at h
  split at h
  · nomatch h
  · rename_i hzero
    obtain ⟨h7, h10⟩ : rsv7Field w = 0#1 ∧ rsv10Field w = 0#6 := by simpa using hzero
    rw [hop] at h
    cases i with
    | trunc | ceil | floor | round | rndc => exact allows_of_decodeC0 h7 h10 h
    | rndm m => exact allows_of_decodeCM h7 h10 h
    | fromfp m n | ufromfp m n | fromfpx m n | ufromfpx m n => exact allows_of_decodeCW h7 h10 h
    | rtsi iw | rtsic iw => exact allows_of_decodeCI h7 h10 h

/-- A word that decodes is the word of what it decodes to. -/
theorem encode_of_decode (h : decode w = .ok i) : i.wellFormed = true ∧ encode i = w := by
  obtain hres | ⟨k, hop⟩ := opcode_cases (opField w)
  · obtain ⟨e, he⟩ := decode_of_reserved hres
    rw [he] at h
    nomatch h
  · obtain ⟨j, hj, rfl⟩ := exists_encode_eq hop (allows_of_decode hop h)
    rw [decode_encode hj, Except.ok.injEq] at h
    exact h ▸ ⟨hj, rfl⟩

/-- With the op code of a command, a word is illegal exactly when the command's format does not allow
its fields. -/
theorem decode_error_iff (hop : opField w = i.opcode) :
    (∃ e, decode w = .error e) ↔ ¬ i.cmdFormat.Allows w := by
  constructor
  · rintro ⟨e, he⟩ hallows
    obtain ⟨j, hj, rfl⟩ := exists_encode_eq hop hallows
    rw [decode_encode hj] at he
    nomatch he
  · intro hnot
    cases h : decode w with
    | error e => exact ⟨e, rfl⟩
    | ok j => exact absurd (allows_of_decode hop h) hnot

/-! ### The opcode table -/

/-- The bits format `k` fixes (R48). -/
def CmdFormat.mask : CmdFormat → CmdWord
  | .c0 => 0xFFFFFFFF#32
  | .cm => 0xFFFFFF8F#32
  | .cw => 0x0000FF8F#32
  | .ci => 0xFFFFFCFF#32

/-- The row of a command. -/
def Instr.row (i : Instr) : OpRow :=
  ⟨i.mnemonic, i.cmdFormat, commandWord 0#16 0#2 0#3 i.opcode, i.cmdFormat.mask, i.cmdFormat.usesMode⟩

theorem mem_opTable_iff (r : OpRow) : r ∈ opTable ↔ ∃ i : Instr, r = i.row := by
  have htable : opTable = Instr.ofEachOpcode.map Instr.row := by decide
  rw [htable]
  constructor
  · intro h
    exact (List.mem_map.mp h).imp fun _ hi => hi.2.symm
  · rintro ⟨i, rfl⟩
    cases i <;> simp [Instr.ofEachOpcode, Instr.row, Instr.mnemonic, Instr.cmdFormat, Instr.opcode]

theorem row_mem_opTable (i : Instr) : i.row ∈ opTable := (mem_opTable_iff _).mpr ⟨i, rfl⟩

/-- The op code determines the row. -/
theorem Instr.row_eq_of_opcode_eq {i j : Instr} (h : i.opcode = j.opcode) : i.row = j.row := by
  have hdistinct : (opTable.map OpRow.pattern).Nodup := by decide
  exact List.inj_on_of_nodup_map hdistinct (row_mem_opTable i) (row_mem_opTable j)
    (congrArg (commandWord 0#16 0#2 0#3) h)

/-- A word is an assembled one when its fields are, the reserved bits included. -/
theorem eq_commandWord_iff (width : BitVec 16) (isel : BitVec 2) (mode : BitVec 3) (op : BitVec 4) :
    w = commandWord width isel mode op ↔ opField w = op ∧ rsv7Field w = 0#1 ∧ rsv10Field w = 0#6 ∧
      modeField w = mode ∧ iselField w = isel ∧ widthField w = width := by
  constructor
  · rintro rfl
    simp
  · rintro ⟨rfl, h7, h10, rfl, rfl, rfl⟩
    exact (commandWord_fields w h7 h10).symm

theorem and_ite_eq_zero_iff {n : Nat} (p : Prop) [Decidable p] (x : BitVec n) :
    x &&& (if p then 0#n else BitVec.allOnes n) = 0#n ↔ (¬ p → x = 0#n) := by
  split <;> simp [*]

/-- The mask of a format compares the op code and the fields the format does not use (R47, R48). -/
theorem CmdFormat.and_mask_eq_iff (k : CmdFormat) (w : CmdWord) (op : BitVec 4) :
    w &&& k.mask = commandWord 0#16 0#2 0#3 op ↔
      opField w = op ∧ rsv7Field w = 0#1 ∧ rsv10Field w = 0#6 ∧
        (k.usesMode = false → modeField w = 0#3) ∧ (k ≠ .ci → iselField w = 0#2) ∧
        (k ≠ .cw → widthField w = 0#16) := by
  have hmask : opField k.mask = BitVec.allOnes 4 ∧ rsv7Field k.mask = BitVec.allOnes 1 ∧
      rsv10Field k.mask = BitVec.allOnes 6 ∧
      modeField k.mask = (if k.usesMode then 0#3 else BitVec.allOnes 3) ∧
      iselField k.mask = (if k = .ci then 0#2 else BitVec.allOnes 2) ∧
      widthField k.mask = (if k = .cw then 0#16 else BitVec.allOnes 16) := by cases k <;> decide
  simp only [opField, rsv7Field, rsv10Field, modeField, iselField, widthField] at hmask
  obtain ⟨hop, h7, h10, hmode, hisel, hwidth⟩ := hmask
  simp only [eq_commandWord_iff, opField, rsv7Field, rsv10Field, modeField, iselField, widthField,
    BitVec.extractLsb'_and, hop, h7, h10, hmode, hisel, hwidth, BitVec.and_allOnes,
    and_ite_eq_zero_iff, Bool.not_eq_true, ne_eq]

/-- A word selects the row of a command when it has the command's op code and the fields its format
allows. -/
theorem row_selects_iff (i : Instr) (w : CmdWord) :
    i.row.selects w = true ↔ opField w = i.opcode ∧ i.cmdFormat.Allows w := by
  have hlegal : (!i.cmdFormat.usesMode || decide ((modeField w).toNat ≤ 4)) = true ↔
      (i.cmdFormat.usesMode = true → (modeField w).toNat ≤ 4) := by
    cases i.cmdFormat.usesMode <;> simp
  simp only [OpRow.selects, Instr.row, Bool.and_eq_true, beq_iff_eq, CmdFormat.and_mask_eq_iff, hlegal,
    CmdFormat.Allows, and_assoc]

end Sys2Proof
end

section
/-!
The statements about command words.
-/

namespace Sys2Proof.Machine

/-- Settles O1, by the fields of an assembled word. -/
theorem encodedCommandDecodesBack : Obligations.EncodedCommandDecodesBack :=
  fun _ hi => decode_encode hi

/-- Settles O2: the word has the op code and the fields of a command, and so is a command's word. -/
theorem legalWordReencodesToItself : Obligations.LegalWordReencodesToItself :=
  fun _ _ h => encode_of_decode h

/-! ### Illegal words -/

/-- The op codes R54 reserves, and those of the formats that use a field (R47, R48). -/
theorem opcode_toNat_mem (i : Instr) :
    i.opcode.toNat ∉ [6, 7, 14, 15] ∧
      (i.opcode.toNat ∈ [4, 8, 9, 10, 11] ↔ i.cmdFormat.usesMode = true) ∧
      (i.opcode.toNat ∈ [12, 13] ↔ i.cmdFormat = .ci) ∧
      (i.opcode.toNat ∈ [8, 9, 10, 11] ↔ i.cmdFormat = .cw) := by
  cases i <;> simp [Instr.opcode, Instr.cmdFormat, CmdFormat.usesMode]

variable {f : Fmt} {w : CmdWord} {e : Illegal}

theorem transaction_of_illegal (he : decode w = .error e) (x : FpWord f) (env : Env) :
    transaction f w x env = (errResponse f 1#2, env) := by
  simp [transaction, he, Fault.errCode]

theorem answerInFlight_of_illegal {b : Block f} (he : decode b.latch.cmd = .error e) :
    answerInFlight ⟨f, b⟩ = .fault .illegalCmd := by
  simp only [answerInFlight, he]

/-- Settles O3: a word has a reserved op code or a command's, and then is illegal when the command's
format does not allow its fields. -/
theorem illegalWordsAreExactlyThese : Obligations.IllegalWordsAreExactlyThese := by
  refine ⟨fun w => ?_, fun f w e x env he => transaction_of_illegal he x env, fun f b w e x rest he hbusy =>
    ⟨fun hhost => ?_, step_accept hbusy⟩⟩
  · obtain hres | ⟨i, hop⟩ := opcode_cases (opField w)
    · exact iff_of_true (decode_of_reserved hres) (.inl hres)
    · obtain ⟨hres, hmode, hisel, hwidth⟩ := opcode_toNat_mem i
      simp only [decode_error_iff hop, hop, hres, hmode, hisel, hwidth, CmdFormat.Allows, not_and_or,
        Classical.not_imp, Nat.not_le, Bool.not_eq_true, false_or, ne_eq]
  · exact (step_command hbusy hhost).trans (answerInFlight_of_illegal he)

/-- Settles O4: the rows are those of the commands, and a command's row is selected by the words of its
op code that its format allows. -/
theorem legalWordSelectsOneTableRow : Obligations.LegalWordSelectsOneTableRow := by
  intro w
  refine ⟨fun i hi => ?_, fun r hr hw => ?_, fun r hr r' hr' hw hw' => ?_⟩
  · obtain ⟨-, rfl⟩ := encode_of_decode hi
    exact ⟨i.row, row_mem_opTable i,
      (row_selects_iff i _).mpr ⟨opField_encode i, i.allows_encode⟩, rfl, rfl⟩
  · obtain ⟨i, rfl⟩ := (mem_opTable_iff r).mp hr
    obtain ⟨hop, hallows⟩ := (row_selects_iff i w).mp hw
    obtain ⟨j, hj, rfl⟩ := exists_encode_eq hop hallows
    exact ⟨j, decode_encode hj,
      congrArg OpRow.mnemonic (Instr.row_eq_of_opcode_eq ((opField_encode j).symm.trans hop))⟩
  · obtain ⟨i, rfl⟩ := (mem_opTable_iff r).mp hr
    obtain ⟨j, rfl⟩ := (mem_opTable_iff r').mp hr'
    obtain ⟨hi, -⟩ := (row_selects_iff i w).mp hw
    obtain ⟨hj, -⟩ := (row_selects_iff j w).mp hw'
    exact Instr.row_eq_of_opcode_eq (hi.symm.trans hj)

/-! ### Fields of every command's word -/

theorem opcode_extractLsb'_eq_subBlock_code (i : Instr) :
    i.opcode.extractLsb' 2 2 = i.subBlock.code := by
  cases i <;> simp [Instr.opcode, Instr.subBlock, SubBlock.code]

/-- Settles O5: the fields of every command's word are known, and bits 3:2 of its op code. -/
theorem opFieldNamesTheSubBlock : Obligations.OpFieldNamesTheSubBlock := by
  intro i
  obtain ⟨hop, h7, h10, hc0, hci, hisel, hwidth⟩ := Laws.EncodeFields.of_fields i
  exact ⟨hop, hop ▸ opcode_extractLsb'_eq_subBlock_code i, h7, h10, fun hk => hk.elim hc0 hci, hisel,
    hwidth⟩

/-- Settles O6, by decoding each word. -/
theorem sampleCommandWordsDecode : Obligations.SampleCommandWordsDecode := by
  unfold Obligations.SampleCommandWordsDecode
  decide

end Sys2Proof.Machine
end

section
/-!
The fields of a floating value (`40_fp_primitives.md` R61, R62).  A pattern is its sign bit followed by
its magnitude field, and the magnitude field is the biased exponent followed by the mantissa; what the
primitives do to a pattern is stated by these two cuts.
-/

namespace Sys2Proof.Machine

variable {f : Fmt} (x : FpWord f)

/-! ### Sign and magnitude -/

theorem sign_append_mag : sign f x ++ mag f x = x := BitVec.extractLsb'_append_extractLsb'

@[simp] theorem sign_append (s : BitVec 1) (m : BitVec (f.E + f.F)) : sign f (s ++ m) = s :=
  BitVec.extractLsb'_append_eq_left

@[simp] theorem mag_append (s : BitVec 1) (m : BitVec (f.E + f.F)) : mag f (s ++ m) = m :=
  BitVec.extractLsb'_append_eq_right

theorem eq_iff_sign_mag {x y : FpWord f} : x = y ↔ sign f x = sign f y ∧ mag f x = mag f y := by
  refine ⟨by rintro rfl; exact ⟨rfl, rfl⟩, fun ⟨hs, hm⟩ => ?_⟩
  rw [← sign_append_mag x, hs, hm, sign_append_mag]

@[simp] theorem sign_pack (s : BitVec 1) (be : BitVec f.E) (m : BitVec f.F) :
    sign f (pack f s be m) = s := sign_append s _

@[simp] theorem mag_pack (s : BitVec 1) (be : BitVec f.E) (m : BitVec f.F) :
    mag f (pack f s be m) = be ++ m := mag_append s _

/-! ### Magnitude, exponent and mantissa -/

theorem mag_eq_bexp_append_mant : mag f x = bexp f x ++ mant f x :=
  (BitVec.extractLsb'_append_extractLsb'_eq_extractLsb' (Nat.zero_add _).symm).symm

theorem bexp_eq_extract_mag : bexp f x = (mag f x).extractLsb' f.F f.E := by
  rw [mag_eq_bexp_append_mant, BitVec.extractLsb'_append_eq_left]

theorem mant_eq_extract_mag : mant f x = (mag f x).extractLsb' 0 f.F := by
  rw [mag_eq_bexp_append_mant, BitVec.extractLsb'_append_eq_right]

theorem bexp_congr {x y : FpWord f} (h : mag f x = mag f y) : bexp f x = bexp f y := by
  rw [bexp_eq_extract_mag, h, ← bexp_eq_extract_mag]

theorem mant_congr {x y : FpWord f} (h : mag f x = mag f y) : mant f x = mant f y := by
  rw [mant_eq_extract_mag, h, ← mant_eq_extract_mag]

/-- The magnitude field as a number: the mantissa counts within the step of the exponent field. -/
theorem mag_toNat : (mag f x).toNat = (bexp f x).toNat * 2 ^ f.F + (mant f x).toNat := by
  rw [mag_eq_bexp_append_mant, BitVec.toNat_append, ← Nat.shiftLeft_add_eq_or_of_lt (mant f x).isLt,
    Nat.shiftLeft_eq]

theorem mag_toNat_div : (mag f x).toNat / 2 ^ f.F = (bexp f x).toNat := by
  have hpos : 0 < 2 ^ f.F := Nat.two_pow_pos _
  rw [mag_toNat, Nat.mul_comm, Nat.mul_add_div hpos, Nat.div_eq_of_lt (mant f x).isLt, Nat.add_zero]

theorem bexp_le_emaxb : (bexp f x).toNat ≤ f.emaxb := Nat.le_sub_one_of_lt (bexp f x).isLt

/-- The biased exponent is the exponent with the bias added (R64). -/
theorem bexp_toNat : ((bexp f x).toNat : ℤ) = exponent f x + f.bias := by
  rw [exponent, sub_add_cancel]

theorem pack_fields : pack f (sign f x) (bexp f x) (mant f x) = x := by
  rw [pack, ← mag_eq_bexp_append_mant, sign_append_mag]

/-! ### Classes -/

theorem isFinite_iff : isFinite f x = true ↔ (bexp f x).toNat ≠ f.emaxb := by
  simp [isFinite, isInfOrNan]

/-- A zero is a zero magnitude field (R63). -/
theorem isZero_iff_mag : isZero f x = true ↔ (mag f x).toNat = 0 := by
  simp [isZero_iff, mag_toNat]

theorem isZero_eq_false_iff : isZero f x = false ↔ 0 < (mag f x).toNat := by
  rw [← Bool.not_eq_true, isZero_iff_mag, Nat.pos_iff_ne_zero]

theorem isSubnormal_iff :
    isSubnormal f x = true ↔ (bexp f x).toNat = 0 ∧ (mant f x).toNat ≠ 0 := by
  simp [isSubnormal]

theorem isNormal_iff :
    isNormal f x = true ↔ 1 ≤ (bexp f x).toNat ∧ (bexp f x).toNat ≤ f.emaxb - 1 := by
  simp [isNormal]

theorem isInf_iff :
    isInf f x = true ↔ (bexp f x).toNat = f.emaxb ∧ (mant f x).toNat = 0 := by
  simp [isInf, isInfOrNan_iff]

theorem isNan_iff :
    isNan f x = true ↔ (bexp f x).toNat = f.emaxb ∧ (mant f x).toNat ≠ 0 := by
  simp [isNan, isInfOrNan_iff]

/-- The exponent field is zero, all ones, or between; the mantissa parts the first two (R63). -/
theorem count_classes (hwf : f.WF) :
    [isZero f x, isSubnormal f x, isNormal f x, isInf f x, isNan f x].count true = 1 := by
  have hemaxb : 0 < f.emaxb := by
    rw [f.emaxb_eq hwf]
    omega
  have hmax := bexp_le_emaxb x
  obtain hb | hb | ⟨hlo, hhi⟩ : (bexp f x).toNat = 0 ∨ (bexp f x).toNat = f.emaxb ∨
      (0 < (bexp f x).toNat ∧ (bexp f x).toNat < f.emaxb) := by omega
  · cases hm : (mant f x).toNat == 0 <;>
      simp [isZero, isSubnormal, isNormal, isInf, isNan, isInfOrNan, bne, hb, hm, hemaxb.ne]
  · cases hm : (mant f x).toNat == 0 <;>
      simp [isZero, isSubnormal, isNormal, isInf, isNan, isInfOrNan, bne, hb, hm, hemaxb, hemaxb.ne']
  · simp [isZero, isSubnormal, isNormal, isInf, isNan, isInfOrNan, hlo.ne', hhi.ne,
      Nat.le_sub_one_of_lt hhi, Nat.one_le_iff_ne_zero]

/-- No class test reads the sign bit. -/
theorem classes_congr {x y : FpWord f} (hbexp : bexp f y = bexp f x) (hmant : mant f y = mant f x) :
    isZero f y = isZero f x ∧ isSubnormal f y = isSubnormal f x ∧ isNormal f y = isNormal f x ∧
      isInf f y = isInf f x ∧ isNan f y = isNan f x := by
  simp [isZero, isSubnormal, isNormal, isInf, isNan, isInfOrNan, hbexp, hmant]

theorem bexp_of_isZero_or_isSubnormal {x : FpWord f} (h : isZero f x = true ∨ isSubnormal f x = true) :
    (bexp f x).toNat = 0 := by
  obtain h | h := h
  · exact ((isZero_iff f x).mp h).1
  · exact ((isSubnormal_iff x).mp h).1

theorem numEq_iff (a b : FpWord f) :
    numEq f a b = true ↔ (isZero f a = true ∧ isZero f b = true) ∨ a = b := by
  simp [numEq]

/-! ### Negation -/

/-- `neg` complements the sign bit and keeps the magnitude field (R67). -/
theorem neg_eq_append : neg f x = ~~~sign f x ++ mag f x := by
  have hmask : BitVec.ofNat f.N 1 <<< (f.N - 1) = 1#1 ++ 0#(f.E + f.F) := by
    apply BitVec.eq_of_toNat_eq
    have hfits : 2 ^ (f.E + f.F) < 2 ^ f.N :=
      Nat.pow_lt_pow_right (by decide) (Nat.lt_one_add_iff.mpr le_rfl)
    simp [BitVec.toNat_append, Nat.shiftLeft_eq, Nat.mod_eq_of_lt hfits]
  have hbit : ∀ s : BitVec 1, s ^^^ 1#1 = ~~~s := by decide
  calc neg f x = (sign f x ++ mag f x) ^^^ (1#1 ++ 0#(f.E + f.F)) := by
        rw [sign_append_mag, neg, hmask]
    _ = ~~~sign f x ++ mag f x := by rw [BitVec.xor_append, hbit, BitVec.xor_zero]

@[simp] theorem sign_neg : sign f (neg f x) = ~~~sign f x := by rw [neg_eq_append, sign_append]

@[simp] theorem mag_neg : mag f (neg f x) = mag f x := by rw [neg_eq_append, mag_append]

theorem neg_neg_eq : neg f (neg f x) = x := eq_iff_sign_mag.mpr ⟨by simp, by simp⟩

end Sys2Proof.Machine
end

section
/-!
What a magnitude field is worth (`40_fp_primitives.md` R65).  Between two consecutive exponents the
value is an affine function of the magnitude field as a number, and the functions of two neighbouring
exponents agree where they meet.  So a greater magnitude field is a greater value (R71), and a carry out
of the mantissa is worth the same as any other unit (R69).
-/

namespace Sys2Proof.Machine

variable {f : Fmt}

/-- The worth of the magnitude field `M` by the weights of the biased exponent `be`.  The exponents 0
and 1 have the same weights (R65). -/
def binadeVal (f : Fmt) (be M : ℕ) : ℚ :=
  2 ^ (((be - 1 : ℕ) : ℤ) + 1 - f.bias - f.F) * ((M : ℚ) - ((be - 1 : ℕ) : ℚ) * 2 ^ f.F)

/-- The worth of the magnitude field `M`, by the weights of its own exponent. -/
def magVal (f : Fmt) (M : ℕ) : ℚ := binadeVal f (M / 2 ^ f.F) M

theorem binadeVal_add (be M d : ℕ) :
    binadeVal f be (M + d) =
      binadeVal f be M + 2 ^ (((be - 1 : ℕ) : ℤ) + 1 - f.bias - f.F) * (d : ℚ) := by
  simp only [binadeVal, Nat.cast_add]
  ring

/-- Neighbouring exponents agree where they meet. -/
theorem binadeVal_boundary (be : ℕ) :
    binadeVal f (be + 1) ((be + 1) * 2 ^ f.F) = binadeVal f be ((be + 1) * 2 ^ f.F) := by
  cases be with
  | zero => rfl
  | succ k =>
    have hstep : ((k + 1 : ℕ) : ℤ) + 1 - f.bias - f.F = ((k : ℤ) + 1 - f.bias - f.F) + 1 := by
      push_cast
      ring
    simp only [binadeVal, Nat.add_sub_cancel, hstep, zpow_add_one₀ (two_ne_zero (α := ℚ))]
    push_cast
    ring

/-- The weights of an exponent serve up to and including the next one. -/
theorem magVal_eq_binadeVal {be M : ℕ} (hlo : be * 2 ^ f.F ≤ M) (hhi : M ≤ (be + 1) * 2 ^ f.F) :
    magVal f M = binadeVal f be M := by
  obtain hlt | rfl := hhi.lt_or_eq
  · rw [magVal, Nat.div_eq_of_lt_le hlo hlt]
  · rw [magVal, Nat.mul_div_cancel _ (Nat.two_pow_pos _), binadeVal_boundary]

/-- A step that stays within an exponent, or just reaches the next one. -/
theorem magVal_add {M d : ℕ} (h : M + d ≤ (M / 2 ^ f.F + 1) * 2 ^ f.F) :
    magVal f (M + d) =
      magVal f M + 2 ^ (((M / 2 ^ f.F - 1 : ℕ) : ℤ) + 1 - f.bias - f.F) * (d : ℚ) := by
  rw [magVal_eq_binadeVal ((Nat.div_mul_le_self M _).trans (Nat.le_add_right M d)) h, binadeVal_add,
    magVal]

theorem magVal_strictMono (f : Fmt) : StrictMono (magVal f) := by
  refine strictMono_nat_of_lt_succ fun M => ?_
  rw [magVal_add (Nat.lt_mul_of_div_lt (Nat.lt_succ_self _) (Nat.two_pow_pos _)), Nat.cast_one, mul_one]
  exact lt_add_of_pos_right _ (zpow_pos two_pos _)

@[simp] theorem magVal_zero : magVal f 0 = 0 := by simp [magVal, binadeVal]

theorem magVal_nonneg (M : ℕ) : 0 ≤ magVal f M :=
  magVal_zero.symm.le.trans ((magVal_strictMono f).monotone (Nat.zero_le M))

/-- A normal exponent with a zero mantissa is worth a power of two. -/
theorem magVal_mul_two_pow {be : ℕ} (h : 1 ≤ be) :
    magVal f (be * 2 ^ f.F) = 2 ^ ((be : ℤ) - f.bias) := by
  obtain ⟨k, rfl⟩ := Nat.exists_eq_add_of_le' h
  rw [magVal, Nat.mul_div_cancel _ (Nat.two_pow_pos _), binadeVal, Nat.add_sub_cancel,
    zpow_sub₀ two_ne_zero, zpow_natCast]
  push_cast
  field_simp
  ring

/-! ### The value of a pattern -/

/-- `(-1)^sign(x)`. -/
def signUnit (f : Fmt) (x : FpWord f) : ℤ := if sign f x = 1#1 then -1 else 1

theorem sign_cases (x : FpWord f) :
    (sign f x = 0#1 ∧ signUnit f x = 1) ∨ (sign f x = 1#1 ∧ signUnit f x = -1) := by
  obtain h | h := BitVec.eq_zero_or_eq_one (sign f x) <;> simp [signUnit, h]

theorem sign_eq_ite (x : FpWord f) : sign f x = if signUnit f x = -1 then 1#1 else 0#1 := by
  obtain ⟨hs, h⟩ | ⟨hs, h⟩ := sign_cases x <;> simp [hs, h]

theorem applySign_eq (x : FpWord f) (n : ℕ) : applySign f x n = signUnit f x * n := by
  obtain ⟨hs, h⟩ | ⟨hs, h⟩ := sign_cases x <;> simp [applySign, isNeg, hs, h]

theorem val_eq (x : FpWord f) : val f x = signUnit f x * magVal f (mag f x).toNat := by
  have hsign : (-1 : ℚ) ^ (sign f x).toNat = signUnit f x := by
    obtain ⟨hs, h⟩ | ⟨hs, h⟩ := sign_cases x <;> simp [hs, h]
  unfold val
  rw [hsign, magVal, mag_toNat_div, mag_toNat, binadeVal]
  split
  next hnormal =>
    obtain ⟨k, hk⟩ := Nat.exists_eq_add_of_le' hnormal
    rw [hk, Nat.add_sub_cancel, zpow_sub₀ two_ne_zero _ (f.F : ℤ), zpow_natCast]
    push_cast
    field_simp
    ring
  next hzero =>
    have hk : (bexp f x).toNat = 0 := by omega
    rw [hk, zpow_sub₀ two_ne_zero _ (f.F : ℤ), zpow_natCast]
    push_cast
    field_simp
    simp

theorem val_neg (x : FpWord f) : val f (neg f x) = -val f x := by
  have hflip : signUnit f (neg f x) = -signUnit f x := by
    obtain ⟨hs, hu⟩ | ⟨hs, hu⟩ := sign_cases x <;> rw [hu, signUnit, sign_neg, hs] <;> rfl
  rw [val_eq, mag_neg, hflip, val_eq]
  push_cast
  ring

theorem val_of_sign_zero {x : FpWord f} (h : sign f x = 0#1) : val f x = magVal f (mag f x).toNat := by
  have hunit : signUnit f x = 1 := by simp [signUnit, h]
  rw [val_eq, hunit, Int.cast_one, one_mul]

theorem abs_val (x : FpWord f) : |val f x| = magVal f (mag f x).toNat := by
  rw [val_eq]
  obtain ⟨-, h⟩ | ⟨-, h⟩ := sign_cases x <;> simp [h, abs_of_nonneg (magVal_nonneg _)]

theorem val_eq_signUnit_mul_abs (x : FpWord f) : val f x = signUnit f x * |val f x| := by
  rw [abs_val, val_eq]

/-- The exponent says which powers of two the magnitude reaches (`40_fp_primitives.md` R64, R65). -/
theorem two_zpow_le_abs_val_iff (x : FpWord f) {n : ℤ} (hn : -(f.bias : ℤ) < n) :
    (2 : ℚ) ^ n ≤ |val f x| ↔ n ≤ exponent f x := by
  obtain ⟨be, hbe⟩ : ∃ be : ℕ, n + f.bias = be := Int.eq_ofNat_of_zero_le (by omega)
  obtain rfl : n = be - f.bias := by omega
  rw [← magVal_mul_two_pow (by omega), abs_val, (magVal_strictMono f).le_iff_le,
    ← Nat.le_div_iff_mul_le (Nat.two_pow_pos _), mag_toNat_div, exponent]
  omega

theorem abs_val_lt_two_zpow_iff (x : FpWord f) {n : ℤ} (hn : -(f.bias : ℤ) < n) :
    |val f x| < (2 : ℚ) ^ n ↔ exponent f x < n := by
  rw [← not_le, two_zpow_le_abs_val_iff x hn, not_le]

end Sys2Proof.Machine
end

section
/-!
Integral values, equal values and the integer of a value (`40_fp_primitives.md` R70 to R72).  A normal
value is its significand scaled by a power of two.
-/

namespace Sys2Proof.Machine

variable {f : Fmt} {x : FpWord f}

/-! ### Normal values by their significand -/

/-- The significand of a normal value, with its implicit leading bit. -/
def significand (f : Fmt) (x : FpWord f) : ℕ := 2 ^ f.F + (mant f x).toNat

theorem one_le_bexp_iff : 1 ≤ (bexp f x).toNat ↔ -(f.bias : ℤ) < exponent f x := by
  have hbexp := bexp_toNat x
  omega

theorem abs_val_eq_significand (h : -(f.bias : ℤ) < exponent f x) :
    |val f x| = significand f x * (2 : ℚ) ^ (exponent f x - f.F) := by
  have hbexp : 1 ≤ (bexp f x).toNat := one_le_bexp_iff.mpr h
  have hlow : |val f x| = binadeVal f (bexp f x).toNat (mag f x).toNat := by
    rw [abs_val, magVal, mag_toNat_div]
  obtain ⟨k, hk⟩ := Nat.exists_eq_add_of_le' hbexp
  rw [hlow, binadeVal, mag_toNat, significand, exponent, hk, Nat.add_sub_cancel]
  push_cast
  ring

theorem isFinite_of_exponent_le (hwf : f.WF) (h : exponent f x ≤ f.bias) : isFinite f x = true := by
  have hbexp := bexp_toNat x
  rw [isFinite_iff, f.emaxb_eq hwf]
  omega

/-- The least magnitude of an exponent is that of a zero mantissa. -/
theorem abs_val_eq_two_zpow_exponent_iff {x : FpWord f} (h : -(f.bias : ℤ) < exponent f x) :
    |val f x| = (2 : ℚ) ^ exponent f x ↔ (mant f x).toNat = 0 := by
  have hbexp := one_le_bexp_iff.mpr h
  rw [abs_val, exponent, ← magVal_mul_two_pow hbexp, (magVal_strictMono f).injective.eq_iff, mag_toNat,
    Nat.add_eq_left]

/-! ### Integrality -/

/-- A value is integral when its magnitude is a natural number. -/
theorem integral_iff_abs_val : Integral f x ↔ ∃ k : ℕ, |val f x| = k := by
  constructor
  · rintro ⟨n, hn⟩
    exact ⟨n.natAbs, by rw [hn, Nat.cast_natAbs, Int.cast_abs]⟩
  · rintro ⟨k, hk⟩
    exact ⟨signUnit f x * k, by rw [val_eq_signUnit_mul_abs, hk]; push_cast; rfl⟩

theorem abs_val_pos (h : isZero f x = false) : 0 < |val f x| := by
  rw [abs_val]
  exact magVal_zero.symm.le.trans_lt (magVal_strictMono f ((isZero_eq_false_iff x).mp h))

theorem val_of_isZero (h : isZero f x = true) : val f x = 0 := by
  rw [val_eq, (isZero_iff_mag x).mp h, magVal_zero, mul_zero]

/-- Every mantissa bit weighs at least 2^0 (R72). -/
theorem abs_val_of_F_le_exponent (hwf : f.WF) (h : (f.F : ℤ) ≤ exponent f x) :
    |val f x| = (significand f x * 2 ^ (exponent f x - f.F).toNat : ℕ) := by
  have hbias := f.three_le_bias hwf
  obtain ⟨k, hk⟩ := Int.eq_ofNat_of_zero_le (sub_nonneg.mpr h)
  rw [abs_val_eq_significand (by omega), hk, zpow_natCast, Int.toNat_natCast]
  push_cast
  rfl

theorem integral_of_F_le_exponent (hwf : f.WF) (h : (f.F : ℤ) ≤ exponent f x) : Integral f x :=
  integral_iff_abs_val.mpr ⟨_, abs_val_of_F_le_exponent hwf h⟩

theorem abs_val_lt_one_iff (hwf : f.WF) : |val f x| < 1 ↔ exponent f x ≤ -1 := by
  have hbias := f.three_le_bias hwf
  have h := abs_val_lt_two_zpow_iff x (n := 0) (by omega)
  rw [zpow_zero] at h
  exact h.trans (by omega)

theorem not_integral_of_exponent_neg (hwf : f.WF) (hzero : isZero f x = false)
    (h : exponent f x ≤ -1) : ¬ Integral f x := by
  intro hint
  obtain ⟨k, hk⟩ := integral_iff_abs_val.mp hint
  have hpos := abs_val_pos hzero
  have hlt := (abs_val_lt_one_iff hwf).mpr h
  rw [hk] at hpos hlt
  norm_cast at hpos hlt
  omega

/-- A non-zero integral value has magnitude at least one (R72). -/
theorem Integral.exponent_nonneg (hwf : f.WF) (hzero : isZero f x = false) (h : Integral f x) :
    0 ≤ exponent f x := by
  by_contra hneg
  exact not_integral_of_exponent_neg hwf hzero (by omega) h

/-! ### Comparison -/

theorem abs_val_eq_abs_val_iff {x y : FpWord f} : |val f x| = |val f y| ↔ mag f x = mag f y := by
  rw [abs_val, abs_val, (magVal_strictMono f).injective.eq_iff, BitVec.toNat_inj]

/-- Values of one sign are equal only as patterns (R71). -/
theorem val_eq_val_iff_of_sign_eq {x y : FpWord f} (hs : sign f x = sign f y) :
    val f x = val f y ↔ x = y :=
  ⟨fun h => eq_iff_sign_mag.mpr ⟨hs, abs_val_eq_abs_val_iff.mp (congrArg abs h)⟩, congrArg (val f)⟩

/-- A non-zero value has a sign of its own. -/
theorem sign_eq_of_val_eq {x y : FpWord f} (hzero : isZero f x = false) (h : val f x = val f y) :
    sign f x = sign f y := by
  have hprod : (signUnit f x : ℚ) * |val f x| = signUnit f y * |val f x| := by
    rw [← val_eq_signUnit_mul_abs, h, ← val_eq_signUnit_mul_abs]
  have hunit : signUnit f x = signUnit f y :=
    Int.cast_injective (mul_right_cancel₀ (abs_val_pos hzero).ne' hprod)
  rw [sign_eq_ite x, hunit, ← sign_eq_ite y]

theorem isZero_iff_val (x : FpWord f) : isZero f x = true ↔ val f x = 0 := by
  refine ⟨val_of_isZero, fun h => ?_⟩
  by_contra hzero
  exact (abs_val_pos (Bool.eq_false_of_not_eq_true hzero)).ne' (abs_eq_zero.mpr h)

theorem numEq_iff_val (a b : FpWord f) : numEq f a b = true ↔ val f a = val f b := by
  rw [numEq_iff]
  constructor
  · rintro (⟨ha, hb⟩ | rfl)
    · rw [val_of_isZero ha, val_of_isZero hb]
    · rfl
  · intro h
    cases ha : isZero f a with
    | true => exact .inl ⟨rfl, (isZero_iff_val b).mpr (h.symm.trans (val_of_isZero ha))⟩
    | false => exact .inr ((val_eq_val_iff_of_sign_eq (sign_eq_of_val_eq ha h)).mp h)

/-! ### The integer of an integral value -/

theorem intOf_of_isZero (h : isZero f x = true) : intOf f x = 0 := if_pos h

theorem intOf_of_exponent_le_F (hzero : isZero f x = false) (h : exponent f x ≤ f.F) :
    intOf f x = signUnit f x * (significand f x / 2 ^ (f.F - exponent f x).toNat : ℕ) := by
  rw [intOf, if_neg (by simp [hzero]), if_pos h, applySign_eq, Nat.shiftRight_eq_div_pow, significand]

theorem intOf_of_F_lt_exponent (hzero : isZero f x = false) (h : f.F < exponent f x) :
    intOf f x = signUnit f x * (significand f x * 2 ^ (exponent f x - f.F).toNat : ℕ) := by
  rw [intOf, if_neg (by simp [hzero]), if_neg (by omega), applySign_eq, Nat.shiftLeft_eq, significand]

/-- The shift to the right loses nothing of an integral value. -/
theorem Integral.abs_val_eq_significand_shifted (hwf : f.WF) (hzero : isZero f x = false)
    (hint : Integral f x) (h : exponent f x ≤ f.F) :
    |val f x| = (significand f x / 2 ^ (f.F - exponent f x).toNat : ℕ) := by
  have hbias := f.three_le_bias hwf
  have hexp := hint.exponent_nonneg hwf hzero
  obtain ⟨n, hn⟩ := Int.eq_ofNat_of_zero_le (sub_nonneg.mpr h)
  obtain ⟨k, hk⟩ := integral_iff_abs_val.mp hint
  have hsig : (significand f x : ℚ) = (k * 2 ^ n : ℕ) := by
    have hval := abs_val_eq_significand (f := f) (x := x) (by omega)
    rw [← neg_sub, hn, zpow_neg, zpow_natCast, hk] at hval
    push_cast
    field_simp at hval
    exact hval.symm
  rw [hk, hn, Int.toNat_natCast, Nat.cast_injective hsig, Nat.mul_div_cancel _ (Nat.two_pow_pos n)]

theorem intOf_eq_val (hwf : f.WF) (hint : Integral f x) : (intOf f x : ℚ) = val f x := by
  cases hzero : isZero f x with
  | true => rw [intOf_of_isZero hzero, val_of_isZero hzero, Int.cast_zero]
  | false =>
    rw [val_eq_signUnit_mul_abs]
    obtain hle | hlt := le_or_gt (exponent f x) f.F
    · rw [intOf_of_exponent_le_F hzero hle, hint.abs_val_eq_significand_shifted hwf hzero hle]
      push_cast
      rfl
    · rw [intOf_of_F_lt_exponent hzero hlt, abs_val_of_F_le_exponent hwf hlt.le]
      push_cast
      rfl

end Sys2Proof.Machine
end

section
/-!
Truncation and the increment (`40_fp_primitives.md` R68, R69).  On their domain the magnitude is the
significand divided by `2^trim`: `trunc_bits` keeps the integer part of the quotient and `rem` the rest,
and the unit `inc_away` adds is worth one.
-/

namespace Sys2Proof.Machine

variable {f : Fmt} {x : FpWord f}

/-! ### Rounding toward zero -/

theorem roundMath_intCast (n : ℤ) (m : Mode) : roundMath n m = n := by simp [roundMath]

theorem roundMath_tz_of_nonneg {v : ℚ} (h : 0 ≤ v) : roundMath v .tz = ⌊v⌋ := by
  unfold roundMath
  split
  next hden =>
    nth_rewrite 2 [← Rat.coe_int_num_of_den_eq_one hden]
    exact Int.floor_intCast _ |>.symm
  next hden =>
    have hne : v ≠ 0 := fun h0 => hden (by rw [h0]; rfl)
    exact if_pos (lt_of_le_of_ne h hne.symm)

theorem roundMath_tz_neg {v : ℚ} (h : 0 ≤ v) : roundMath (-v) .tz = -⌊v⌋ := by
  unfold roundMath
  split
  next hden =>
    rw [← Int.ceil_neg]
    nth_rewrite 2 [← Rat.coe_int_num_of_den_eq_one hden]
    exact Int.ceil_intCast _ |>.symm
  next hden =>
    rw [← Int.ceil_neg]
    exact if_neg (by linarith)

theorem roundMath_tz_val (x : FpWord f) : roundMath (val f x) .tz = signUnit f x * ⌊|val f x|⌋ := by
  rw [val_eq_signUnit_mul_abs]
  obtain ⟨-, h⟩ | ⟨-, h⟩ := sign_cases x
  · simp [h, roundMath_tz_of_nonneg (abs_nonneg _)]
  · simp [h, roundMath_tz_neg (abs_nonneg _)]

/-- An integral value is one that rounding keeps. -/
theorem integral_iff_roundMath (m : Mode) : Integral f x ↔ (roundMath (val f x) m : ℚ) = val f x := by
  refine ⟨fun ⟨n, hn⟩ => ?_, fun h => ⟨_, h.symm⟩⟩
  rw [hn, roundMath_intCast]

/-! ### The primitives on their domain -/

theorem bexp_truncBits : bexp f (truncBits f x) = bexp f x := bexp_pack _ _ _

theorem sign_truncBits : sign f (truncBits f x) = sign f x := sign_pack _ _ _

theorem exponent_truncBits : exponent f (truncBits f x) = exponent f x := by
  rw [exponent, bexp_truncBits, exponent]

theorem trimOf_truncBits : trimOf f (truncBits f x) = trimOf f x := by
  rw [trimOf, exponent_truncBits, trimOf]

theorem signUnit_truncBits : signUnit f (truncBits f x) = signUnit f x := by
  rw [signUnit, sign_truncBits, signUnit]

theorem mant_truncBits :
    (mant f (truncBits f x)).toNat = (mant f x).toNat / 2 ^ trimOf f x * 2 ^ trimOf f x := by
  rw [truncBits, mant_pack, BitVec.toNat_shiftLeft, BitVec.toNat_ushiftRight, Nat.shiftRight_eq_div_pow,
    Nat.shiftLeft_eq]
  exact Nat.mod_eq_of_lt ((Nat.div_mul_le_self _ _).trans_lt (mant f x).isLt)

/-- The domain of R68: `0 ≤ exponent(x) ≤ F-1`. -/
def HasFraction (f : Fmt) (x : FpWord f) : Prop := 0 ≤ exponent f x ∧ exponent f x ≤ (f.F : ℤ) - 1

theorem HasFraction.of_truncBits (hx : HasFraction f x) : HasFraction f (truncBits f x) := by
  rwa [HasFraction, exponent_truncBits]

theorem HasFraction.trimOf_eq (hx : HasFraction f x) : (trimOf f x : ℤ) = f.F - exponent f x := by
  obtain ⟨-, hhi⟩ := hx
  exact Int.toNat_of_nonneg (by omega)

theorem HasFraction.two_pow_trimOf_dvd (hx : HasFraction f x) : 2 ^ trimOf f x ∣ 2 ^ f.F := by
  have htrim := hx.trimOf_eq
  obtain ⟨hlo, -⟩ := hx
  exact pow_dvd_pow 2 (by omega)

/-- Below the binary point of the significand stands `rem`. -/
theorem HasFraction.significand_mod (hx : HasFraction f x) :
    significand f x % 2 ^ trimOf f x = rem f x := by
  obtain ⟨c, hc⟩ := hx.two_pow_trimOf_dvd
  rw [significand, hc, Nat.mul_add_mod, rem]

/-- Above it stands what `trunc_bits` keeps. -/
theorem HasFraction.significand_truncBits (hx : HasFraction f x) :
    significand f (truncBits f x) = significand f x / 2 ^ trimOf f x * 2 ^ trimOf f x := by
  obtain ⟨c, hc⟩ := hx.two_pow_trimOf_dvd
  rw [significand, significand, mant_truncBits, hc, Nat.mul_add_div (Nat.two_pow_pos _)]
  ring

/-- The increment of a truncated value reaches the next exponent at most. -/
theorem HasFraction.mag_truncBits_add_le (hx : HasFraction f x) :
    (mag f (truncBits f x)).toNat + 2 ^ trimOf f x ≤ ((bexp f x).toNat + 1) * 2 ^ f.F := by
  obtain ⟨c, hc⟩ := hx.two_pow_trimOf_dvd
  have hquot : (mant f x).toNat / 2 ^ trimOf f x < c :=
    Nat.div_lt_of_lt_mul (hc ▸ (mant f x).isLt)
  have hmant : (mant f (truncBits f x)).toNat + 2 ^ trimOf f x ≤ 2 ^ f.F := by
    rw [mant_truncBits, hc, ← Nat.succ_mul, Nat.mul_comm _ c]
    exact Nat.mul_le_mul_right _ hquot
  rw [mag_toNat, bexp_truncBits, Nat.succ_mul]
  omega

theorem sign_incAway (t : FpWord f) (n : ℕ) : sign f (incAway f t n) = sign f t := sign_append _ _

section
variable (hwf : f.WF) (hx : HasFraction f x)
include hwf hx

theorem abs_val_eq_significand_div : |val f x| = significand f x / 2 ^ trimOf f x := by
  have hbias := f.three_le_bias hwf
  have htrim := hx.trimOf_eq
  obtain ⟨hlo, -⟩ := hx
  rw [abs_val_eq_significand (by omega), show exponent f x - f.F = -(trimOf f x : ℤ) by omega,
    zpow_neg, zpow_natCast, div_eq_mul_inv]

theorem abs_val_truncBits : |val f (truncBits f x)| = (significand f x / 2 ^ trimOf f x : ℕ) := by
  rw [abs_val_eq_significand_div hwf hx.of_truncBits, trimOf_truncBits, hx.significand_truncBits,
    Nat.cast_mul, Nat.cast_pow, Nat.cast_ofNat, mul_div_cancel_right₀ _ (pow_ne_zero _ two_ne_zero)]

/-- The value lost is the remainder, at its weight. -/
theorem abs_val_sub_abs_val_truncBits :
    |val f x| - |val f (truncBits f x)| = (rem f x : ℚ) / 2 ^ trimOf f x := by
  have hsplit : (rem f x + 2 ^ trimOf f x * (significand f x / 2 ^ trimOf f x : ℕ) : ℚ) =
      significand f x := by
    rw [← hx.significand_mod]
    exact_mod_cast Nat.mod_add_div _ _
  rw [abs_val_eq_significand_div hwf hx, abs_val_truncBits hwf hx, ← hsplit]
  field_simp
  ring

theorem floor_abs_val : (⌊|val f x|⌋ : ℚ) = |val f (truncBits f x)| := by
  have hfloor := Rat.floor_natCast_div_natCast (significand f x) (2 ^ trimOf f x)
  rw [abs_val_truncBits hwf hx, abs_val_eq_significand_div hwf hx]
  push_cast at hfloor
  rw [hfloor]
  rfl

theorem val_truncBits : val f (truncBits f x) = (roundMath (val f x) .tz : ℚ) := by
  rw [roundMath_tz_val, val_eq_signUnit_mul_abs, signUnit_truncBits, Int.cast_mul, floor_abs_val hwf hx]

theorem integral_iff_truncBits : Integral f x ↔ truncBits f x = x := by
  rw [integral_iff_roundMath .tz, ← val_truncBits hwf hx, val_eq_val_iff_of_sign_eq sign_truncBits]

theorem integral_iff_rem : Integral f x ↔ rem f x = 0 := by
  rw [integral_iff_truncBits hwf hx, eq_iff_sign_mag, and_iff_right sign_truncBits,
    ← abs_val_eq_abs_val_iff, eq_comm, ← sub_eq_zero, abs_val_sub_abs_val_truncBits hwf hx,
    div_eq_zero_iff, or_iff_left (pow_ne_zero _ two_ne_zero), Nat.cast_eq_zero]

/-! ### The increment -/

/-- The increment carries out of no bit of the magnitude field. -/
theorem mag_incAway : (mag f (incAway f (truncBits f x) (trimOf f x))).toNat =
    (mag f (truncBits f x)).toNat + 2 ^ trimOf f x := by
  have hbexp : (bexp f x).toNat + 1 < 2 ^ f.E := by
    have hemaxb := f.emaxb_eq hwf
    have hlt := f.emaxb_lt
    have hexp := bexp_toNat x
    obtain ⟨-, -, -, hF⟩ := hwf
    obtain ⟨-, hhi⟩ := hx
    omega
  have hfits : (mag f (truncBits f x)).toNat + 2 ^ trimOf f x < 2 ^ (f.E + f.F) :=
    calc _ ≤ ((bexp f x).toNat + 1) * 2 ^ f.F := hx.mag_truncBits_add_le
      _ < 2 ^ f.E * 2 ^ f.F := Nat.mul_lt_mul_of_pos_right hbexp (Nat.two_pow_pos _)
      _ = 2 ^ (f.E + f.F) := (pow_add 2 f.E f.F).symm
  have hunit : (BitVec.ofNat (f.E + f.F) 1 <<< trimOf f x).toNat = 2 ^ trimOf f x % 2 ^ (f.E + f.F) :=
    BitVec.toNat_twoPow _ _
  rw [incAway, mag_append, BitVec.toNat_add, hunit, Nat.add_mod_mod, Nat.mod_eq_of_lt hfits]

/-- The unit of the increment weighs one: the bits below it are the `trim` cleared ones. -/
theorem abs_val_incAway :
    |val f (incAway f (truncBits f x) (trimOf f x))| = |val f (truncBits f x)| + 1 := by
  have hbias := f.three_le_bias hwf
  have htrim := hx.trimOf_eq
  have hstep := hx.mag_truncBits_add_le
  have hunit : (((bexp f x).toNat - 1 : ℕ) : ℤ) + 1 - f.bias - f.F = -(trimOf f x : ℤ) := by
    have hexp := bexp_toNat x
    obtain ⟨hlo, -⟩ := hx
    omega
  rw [abs_val, mag_incAway hwf hx, abs_val, magVal_add (by rwa [mag_toNat_div, bexp_truncBits]),
    mag_toNat_div, bexp_truncBits, hunit, Nat.cast_pow, Nat.cast_ofNat, zpow_neg, zpow_natCast,
    inv_mul_cancel₀ (pow_ne_zero _ two_ne_zero)]

theorem abs_val_incAway_le : |val f (incAway f (truncBits f x) (trimOf f x))| ≤ 2 ^ f.F := by
  have hlt : |val f (truncBits f x)| < 2 ^ f.F := by
    obtain ⟨-, hhi⟩ := hx
    have hbias := f.three_le_bias hwf
    rw [← zpow_natCast, abs_val_lt_two_zpow_iff _ (by omega), exponent_truncBits]
    omega
  rw [abs_val_incAway hwf hx]
  rw [abs_val_truncBits hwf hx] at hlt ⊢
  exact_mod_cast hlt

theorem val_incAway : val f (incAway f (truncBits f x) (trimOf f x)) =
    val f (truncBits f x) + signUnit f x := by
  have hsign : signUnit f (incAway f (truncBits f x) (trimOf f x)) = signUnit f (truncBits f x) := by
    rw [signUnit, sign_incAway, signUnit]
  rw [val_eq_signUnit_mul_abs, abs_val_incAway hwf hx, hsign, mul_add, mul_one,
    ← val_eq_signUnit_mul_abs, signUnit_truncBits]

theorem isFinite_incAway : isFinite f (incAway f (truncBits f x) (trimOf f x)) = true := by
  have hlt := (abs_val_incAway_le hwf hx).trans_lt (pow_lt_pow_right₀ one_lt_two f.F.lt_succ_self)
  rw [← zpow_natCast, abs_val_lt_two_zpow_iff _ (by omega)] at hlt
  refine isFinite_of_exponent_le hwf ?_
  obtain ⟨-, -, -, hF⟩ := hwf
  push_cast at hlt
  omega

end

end Sys2Proof.Machine
end

section
/-!
The statements about the floating operand and its primitives (`40_fp_primitives.md`).
-/

namespace Sys2Proof.Machine

/-- Settles O7, by the cuts of a pattern into fields. -/
theorem fieldsRoundTrip : Obligations.FieldsRoundTrip :=
  fun _ => ⟨pack_fields, fun s be m => ⟨sign_pack s be m, bexp_pack s be m, mant_pack s be m⟩⟩

/-- Settles O8: the exponent field decides between three cases, and the mantissa parts two of them. -/
theorem exactlyOneClassHolds : Obligations.ExactlyOneClassHolds :=
  fun f x hwf => ⟨isZero_iff f x, isSubnormal_iff x, isNormal_iff x, isInf_iff x, isNan_iff x,
    count_classes x hwf, isInfOrNan_iff f x, rfl, fun _ => classes_congr⟩

/-- Settles O9: negation complements the sign and keeps the magnitude field. -/
theorem negationFlipsOnlyTheSign : Obligations.NegationFlipsOnlyTheSign :=
  fun _ x => ⟨sign_neg x, bexp_congr (mag_neg x), mant_congr (mag_neg x), neg_neg_eq x,
    fun _ => val_neg x⟩

/-- Settles O10: the magnitude reaches the powers of two up to the exponent. -/
theorem exponentBoundsTheMagnitude : Obligations.ExponentBoundsTheMagnitude := by
  intro f x hwf
  have hbias := f.three_le_bias hwf
  have hmax := bexp_le_emaxb x
  have hbexp := bexp_toNat x
  refine ⟨by omega, by omega, fun hnormal => ?_, fun hzero => ?_⟩
  · obtain ⟨hone, -⟩ := (isNormal_iff x).mp hnormal
    have hexp := one_le_bexp_iff.mp hone
    exact ⟨(two_zpow_le_abs_val_iff x hexp).mpr le_rfl,
      (abs_val_lt_two_zpow_iff x (by omega)).mpr (lt_add_one _)⟩
  · have hexp := exponent_of_bexp_zero f x (bexp_of_isZero_or_isSubnormal hzero)
    have hquarter : |val f x| < (2 : ℚ) ^ (-2 : ℤ) :=
      (abs_val_lt_two_zpow_iff x (by omega)).mpr (by omega)
    exact ⟨hexp, (abs_val_lt_two_zpow_iff x (by omega)).mpr (by omega),
      hquarter.trans_eq (by norm_num)⟩

/-- Settles O11, by the powers of two the magnitude reaches. -/
theorem exponentDecidesIntegrality : Obligations.ExponentDecidesIntegrality := by
  intro f x hwf _
  have hbias := f.three_le_bias hwf
  have hhalf : (2 : ℚ) ^ (-1 : ℤ) = 1 / 2 := by norm_num
  refine ⟨integral_of_F_le_exponent hwf, fun hzero hexp => ?_, fun hexp => ?_, fun hexp => ?_⟩
  · exact ⟨abs_val_pos hzero, (abs_val_lt_one_iff hwf).mpr hexp,
      not_integral_of_exponent_neg hwf hzero hexp⟩
  · have hleast := abs_val_eq_two_zpow_exponent_iff (f := f) (x := x) (by omega)
    rw [hexp, hhalf] at hleast
    refine ⟨?_, (abs_val_lt_one_iff hwf).mpr hexp.le, hleast⟩
    rw [← hhalf, two_zpow_le_abs_val_iff x (by omega), hexp]
  · rw [← hhalf, abs_val_lt_two_zpow_iff x (by omega)]
    omega

/-- Settles O12: truncation keeps the integer part of the significand's quotient by `2^trim`. -/
theorem truncationKeepsTheIntegerPart : Obligations.TruncationKeepsTheIntegerPart := by
  intro f x hwf hlo hhi
  have hx : HasFraction f x := ⟨hlo, hhi⟩
  exact ⟨hx.trimOf_eq, Nat.mod_lt _ (Nat.two_pow_pos _), sign_truncBits, bexp_truncBits,
    val_truncBits hwf hx, abs_val_sub_abs_val_truncBits hwf hx, integral_iff_rem hwf hx,
    integral_iff_truncBits hwf hx⟩

/-- Settles O13: the unit added to the magnitude field is worth one. -/
theorem incrementAddsOneUnit : Obligations.IncrementAddsOneUnit := by
  intro f x hwf hlo hhi
  have hx : HasFraction f x := ⟨hlo, hhi⟩
  refine ⟨isFinite_incAway hwf hx, (sign_incAway _ _).trans sign_truncBits,
    abs_val_incAway_le hwf hx, ?_⟩
  rw [val_incAway hwf hx, signUnit]
  push_cast
  rfl

/-- Settles O14: an integral value loses no bit to `int_of`'s shift. -/
theorem integerOfAnIntegralValue : Obligations.IntegerOfAnIntegralValue :=
  fun _ _ hwf _ hint => intOf_eq_val hwf hint

/-- Settles O15: the value is strictly monotone in the magnitude field, and only zeros share a value
with the other sign. -/
theorem numericComparisonIsOfValues : Obligations.NumericComparisonIsOfValues := by
  intro f a b _ _ _
  refine ⟨numEq_iff_val a b, fun _ _ hs => val_eq_val_iff_of_sign_eq hs, fun ha hb => ?_⟩
  rw [val_of_sign_zero ha, val_of_sign_zero hb, (magVal_strictMono f).lt_iff_lt]

end Sys2Proof.Machine
end

section
/-!
Rounding a rational value (`40_fp_primitives.md` R74).  The result is one of the two integers around the
value; which one depends, up to a mirror image, on the magnitude alone.
-/

namespace Sys2Proof

/-- The mode that rounds the mirror image of a value to the mirror image of its result. -/
def Mode.mirror : Mode → Mode
  | .dn => .up
  | .up => .dn
  | .tz => .tz
  | .na => .na
  | .ne => .ne

end Sys2Proof

namespace Sys2Proof.Machine

variable {v a : ℚ}

/-! ### The nearest integer -/

theorem nearest_of_fract_lt (h : Int.fract v < 1 / 2) (p : Prop) [Decidable p] : nearest v p = ⌊v⌋ :=
  if_pos h

theorem nearest_of_lt_fract (h : 1 / 2 < Int.fract v) (p : Prop) [Decidable p] : nearest v p = ⌈v⌉ :=
  (if_neg h.not_gt).trans (if_pos h)

theorem nearest_of_fract_eq (h : Int.fract v = 1 / 2) (p : Prop) [Decidable p] :
    nearest v p = if p then ⌈v⌉ else ⌊v⌋ :=
  (if_neg h.not_lt).trans (if_neg h.not_gt)

theorem nearest_eq_floor_or_ceil (v : ℚ) (p : Prop) [Decidable p] :
    nearest v p = ⌊v⌋ ∨ nearest v p = ⌈v⌉ := by
  obtain h | h | h := lt_trichotomy (Int.fract v) (1 / 2)
  · exact .inl (nearest_of_fract_lt h p)
  · rw [nearest_of_fract_eq h]
    exact (ite_eq_or_eq _ _ _).symm
  · exact .inr (nearest_of_lt_fract h p)

/-- The nearest integer of the mirror image, where a tie goes the other way. -/
theorem nearest_neg (h : Int.fract v ≠ 0) {p q : Prop} [Decidable p] [Decidable q] (hpq : q ↔ ¬ p) :
    nearest (-v) p = -nearest v q := by
  have hfract : Int.fract (-v) = 1 - Int.fract v := Int.fract_neg h
  obtain hlt | heq | hgt := lt_trichotomy (Int.fract v) (1 / 2)
  · rw [nearest_of_fract_lt hlt, nearest_of_lt_fract (by linarith), Int.ceil_neg]
  · rw [nearest_of_fract_eq heq, nearest_of_fract_eq (by linarith), Int.ceil_neg, Int.floor_neg]
    by_cases hp : p <;> simp [hp, hpq]
  · rw [nearest_of_lt_fract hgt, nearest_of_fract_lt (by linarith), Int.floor_neg]

/-! ### Rounding under a mode -/

theorem eq_intCast_or_fract_ne_zero (v : ℚ) : (∃ n : ℤ, v = n) ∨ Int.fract v ≠ 0 := by
  rw [or_iff_not_imp_right, not_not, Int.fract_eq_zero_iff]
  rintro ⟨n, rfl⟩
  exact ⟨n, rfl⟩

theorem ceil_eq_floor_add_one (h : Int.fract v ≠ 0) : ⌈v⌉ = ⌊v⌋ + 1 :=
  (Int.ceil_eq_floor_add_one_iff_notMem v).mpr (mt Int.fract_eq_zero_iff.mpr h)

/-- Off the integers `roundMath` follows the rule of its mode. -/
theorem roundMath_of_fract_ne_zero (h : Int.fract v ≠ 0) :
    roundMath v .dn = ⌊v⌋ ∧ roundMath v .up = ⌈v⌉ ∧ roundMath v .tz = (if 0 < v then ⌊v⌋ else ⌈v⌉) ∧
      roundMath v .na = nearest v (0 < v) ∧ roundMath v .ne = nearest v (⌊v⌋ % 2 ≠ 0) := by
  have hden : v.den ≠ 1 := fun hden => h (Int.fract_eq_zero_iff.mpr ⟨v.num, v.den_eq_one_iff.mp hden⟩)
  exact ⟨if_neg hden, if_neg hden, if_neg hden, if_neg hden, if_neg hden⟩

theorem roundMath_dn (v : ℚ) : roundMath v .dn = ⌊v⌋ := by
  obtain ⟨n, rfl⟩ | h := eq_intCast_or_fract_ne_zero v
  · rw [roundMath_intCast, Int.floor_intCast]
  · obtain ⟨hdn, -⟩ := roundMath_of_fract_ne_zero h
    exact hdn

theorem roundMath_up (v : ℚ) : roundMath v .up = ⌈v⌉ := by
  obtain ⟨n, rfl⟩ | h := eq_intCast_or_fract_ne_zero v
  · rw [roundMath_intCast, Int.ceil_intCast]
  · obtain ⟨-, hup, -⟩ := roundMath_of_fract_ne_zero h
    exact hup

theorem roundMath_eq_floor_or_ceil (v : ℚ) (m : Mode) : roundMath v m = ⌊v⌋ ∨ roundMath v m = ⌈v⌉ := by
  obtain ⟨n, rfl⟩ | h := eq_intCast_or_fract_ne_zero v
  · left
    rw [roundMath_intCast, Int.floor_intCast]
  · obtain ⟨hdn, hup, htz, hna, hne⟩ := roundMath_of_fract_ne_zero h
    cases m with
    | dn => exact .inl hdn
    | up => exact .inr hup
    | tz => exact htz ▸ ite_eq_or_eq _ _ _
    | na => exact hna ▸ nearest_eq_floor_or_ceil v _
    | ne => exact hne ▸ nearest_eq_floor_or_ceil v _

theorem abs_roundMath_sub_lt_one (v : ℚ) (m : Mode) : |(roundMath v m : ℚ) - v| < 1 := by
  rw [abs_sub_lt_iff]
  obtain h | h := roundMath_eq_floor_or_ceil v m <;> rw [h]
  · exact ⟨by linarith [Int.floor_le v], by linarith [Int.lt_floor_add_one v]⟩
  · exact ⟨by linarith [Int.ceil_lt_add_one v], by linarith [Int.le_ceil v]⟩

theorem roundMath_neg (v : ℚ) (m : Mode) : roundMath (-v) m = -roundMath v m.mirror := by
  obtain ⟨n, rfl⟩ | h := eq_intCast_or_fract_ne_zero v
  · rw [← Int.cast_neg, roundMath_intCast, roundMath_intCast]
  · have hv : v ≠ 0 := fun h0 => h (by rw [h0, Int.fract_zero])
    obtain ⟨-, -, htz, hna, hne⟩ := roundMath_of_fract_ne_zero h
    obtain ⟨-, -, htz', hna', hne'⟩ :=
      roundMath_of_fract_ne_zero (mt Int.fract_neg_eq_zero.mp h)
    have hside : 0 < v ↔ ¬ 0 < -v := by
      rw [Left.neg_pos_iff, not_lt, le_iff_lt_or_eq, or_iff_left hv.symm]
    have hparity : ⌊v⌋ % 2 ≠ 0 ↔ ¬ ⌊-v⌋ % 2 ≠ 0 := by
      rw [Int.floor_neg, ceil_eq_floor_add_one h]
      omega
    cases m with
    | dn => rw [Mode.mirror, roundMath_dn, roundMath_up, Int.floor_neg]
    | up => rw [Mode.mirror, roundMath_dn, roundMath_up, Int.ceil_neg]
    | tz =>
      rw [Mode.mirror, htz, htz', Int.floor_neg, Int.ceil_neg]
      by_cases hpos : 0 < v
      · rw [if_pos hpos, if_neg (hside.mp hpos)]
      · rw [if_neg hpos, if_pos (not_not.mp (mt hside.mpr hpos))]
    | na => exact hna'.trans ((nearest_neg h hside).trans (congrArg _ hna.symm))
    | ne => exact hne'.trans ((nearest_neg h hparity).trans (congrArg _ hne.symm))

/-! ### Rounding a magnitude -/

/-- Whether a mode takes the magnitude `a` of a non-integral value to the next integer away from zero,
where `neg` says that the value is negative. -/
def roundsAway (m : Mode) (neg : Bool) (a : ℚ) : Bool :=
  match m with
  | .dn => neg
  | .up => !neg
  | .tz => false
  | .na => decide (1 / 2 ≤ Int.fract a)
  | .ne => decide (1 / 2 < Int.fract a ∨ Int.fract a = 1 / 2 ∧ ⌊a⌋ % 2 = 1)

theorem roundsAway_mirror (m : Mode) (neg : Bool) (a : ℚ) :
    roundsAway m.mirror neg a = roundsAway m (!neg) a := by
  cases m <;> simp [roundsAway, Mode.mirror]

theorem nearest_eq_floor_add_ite (h : Int.fract v ≠ 0) (p : Prop) [Decidable p] :
    nearest v p = ⌊v⌋ + if 1 / 2 < Int.fract v ∨ Int.fract v = 1 / 2 ∧ p then 1 else 0 := by
  obtain hlt | heq | hgt := lt_trichotomy (Int.fract v) (1 / 2)
  · rw [nearest_of_fract_lt hlt, if_neg (by rintro (hgt | ⟨heq, -⟩) <;> linarith), add_zero]
  · rw [nearest_of_fract_eq heq, ceil_eq_floor_add_one h]
    by_cases hp : p <;> simp [heq, hp]
  · rw [nearest_of_lt_fract hgt, if_pos (.inl hgt), ceil_eq_floor_add_one h]

theorem roundMath_of_pos (ha : 0 < a) (h : Int.fract a ≠ 0) (m : Mode) :
    roundMath a m = ⌊a⌋ + if roundsAway m false a then 1 else 0 := by
  obtain ⟨hdn, hup, htz, hna, hne⟩ := roundMath_of_fract_ne_zero h
  have hceil := ceil_eq_floor_add_one h
  cases m with
  | dn => simp [roundsAway, hdn]
  | up => simp [roundsAway, hup, hceil]
  | tz => simp [roundsAway, htz, ha]
  | na =>
    have hle : 1 / 2 ≤ Int.fract a ↔ 1 / 2 < Int.fract a ∨ Int.fract a = 1 / 2 :=
      le_iff_lt_or_eq.trans (or_congr_right eq_comm)
    simp only [roundsAway, hna, nearest_eq_floor_add_ite h, ha, and_true, decide_eq_true_eq, hle]
  | ne => simp [roundsAway, hne, nearest_eq_floor_add_ite h]

variable {f : Fmt} {x : FpWord f}

theorem Integral.of_fract_abs_val (h : Int.fract |val f x| = 0) : Integral f x := by
  obtain ⟨n, hn⟩ := Int.fract_eq_zero_iff.mp h
  exact ⟨signUnit f x * n, by rw [val_eq_signUnit_mul_abs, ← hn]; push_cast; rfl⟩

/-- A non-integral value is rounded in its magnitude, and keeps its sign. -/
theorem roundMath_val (h : ¬ Integral f x) (m : Mode) :
    roundMath (val f x) m =
      signUnit f x * (⌊|val f x|⌋ + if roundsAway m (isNeg f x) |val f x| then 1 else 0) := by
  have hfract : Int.fract |val f x| ≠ 0 := mt Integral.of_fract_abs_val h
  have hpos : 0 < |val f x| := (abs_nonneg _).lt_of_ne fun h0 => hfract (by rw [← h0, Int.fract_zero])
  rw [val_eq_signUnit_mul_abs]
  obtain ⟨hs, hu⟩ | ⟨hs, hu⟩ := sign_cases x
  · have hneg : isNeg f x = false := by simp [isNeg, hs]
    rw [hu, hneg, Int.cast_one, one_mul, one_mul, abs_abs, roundMath_of_pos hpos hfract]
  · have hneg : isNeg f x = true := by simp [isNeg, hs]
    rw [hu, hneg, Int.cast_neg, Int.cast_one, neg_one_mul, abs_neg, abs_abs, roundMath_neg,
      roundMath_of_pos hpos hfract, roundsAway_mirror, Bool.not_false, neg_one_mul]

end Sys2Proof.Machine
end

section
/-!
Correct results (`41_fixed_rule_rounding.md` R85).  A correct result is unique as a pattern, because its
sign is the operand's; so two functions that round correctly under one mode are equal.
-/

namespace Sys2Proof.Machine

variable {f : Fmt} {m : Mode} {x y z : FpWord f}

theorem RoundsTo.unique (hy : RoundsTo f m x y) (hz : RoundsTo f m x z) : y = z := by
  cases hx : isFinite f x with
  | true =>
    obtain ⟨-, hval, hsign⟩ := hy.1 hx
    obtain ⟨-, hval', hsign'⟩ := hz.1 hx
    exact (val_eq_val_iff_of_sign_eq (hsign.trans hsign'.symm)).mp (hval.trans hval'.symm)
  | false => rw [hy.2 hx, hz.2 hx]

/-- What is integral, infinite or a NaN is its own rounding. -/
theorem roundsTo_self (h : isFinite f x = true → Integral f x) (m : Mode) : RoundsTo f m x x :=
  ⟨fun hx => ⟨hx, ((integral_iff_roundMath m).mp (h hx)).symm, rfl⟩, fun _ => rfl⟩

theorem RoundsTo.integral (h : RoundsTo f m x y) (hx : isFinite f x = true) : Integral f y := by
  obtain ⟨-, hval, -⟩ := h.1 hx
  exact ⟨_, hval⟩

theorem RoundsTo.isFinite_eq (h : RoundsTo f m x y) : isFinite f y = isFinite f x := by
  cases hx : isFinite f x with
  | true =>
    obtain ⟨hfin, -⟩ := h.1 hx
    exact hfin
  | false => rw [h.2 hx, hx]

/-- Rounding a result again changes nothing, under whatever mode. -/
theorem RoundsTo.again {m' : Mode} (h : RoundsTo f m x y) (h' : RoundsTo f m' y z) : z = y :=
  h'.unique (roundsTo_self (fun hy => h.integral (h.isFinite_eq ▸ hy)) m')

theorem RoundsTo.abs_sub_lt_one (h : RoundsTo f m x y) (hx : isFinite f x = true) :
    |val f y - val f x| < 1 := by
  obtain ⟨-, hval, -⟩ := h.1 hx
  rw [hval]
  exact abs_roundMath_sub_lt_one _ _

theorem RoundsTo.val_le (h : RoundsTo f .dn x y) (hx : isFinite f x = true) : val f y ≤ val f x := by
  obtain ⟨-, hval, -⟩ := h.1 hx
  rw [hval, roundMath_dn]
  exact Int.floor_le _

theorem RoundsTo.le_val (h : RoundsTo f .up x y) (hx : isFinite f x = true) : val f x ≤ val f y := by
  obtain ⟨-, hval, -⟩ := h.1 hx
  rw [hval, roundMath_up]
  exact Int.le_ceil _

theorem isFinite_neg : isFinite f (neg f x) = isFinite f x := by
  rw [isFinite, isInfOrNan, bexp_congr (mag_neg x), isFinite, isInfOrNan]

/-- The mirror image of a correct result is correct for the mirror image of the operand. -/
theorem RoundsTo.neg (h : RoundsTo f m (neg f x) y) : RoundsTo f m.mirror x (neg f y) := by
  refine ⟨fun hx => ?_, fun hx => ?_⟩
  · obtain ⟨hfin, hval, hsign⟩ := h.1 (isFinite_neg.trans hx)
    refine ⟨isFinite_neg.trans hfin, ?_, by rw [sign_neg, hsign, sign_neg, BitVec.not_not]⟩
    rw [val_neg, hval, val_neg, roundMath_neg, Int.cast_neg, neg_neg]
  · rw [h.2 (isFinite_neg.trans hx), neg_neg_eq]

/-! ### The neighbours of a non-integral value -/

theorem val_of_sign_eq (h : sign f y = sign f x) : val f y = signUnit f x * |val f y| := by
  rw [signUnit, ← h]
  exact val_eq_signUnit_mul_abs y

/-- A correct result is correct in its magnitude, beside the sign. -/
theorem roundsTo_of_abs_val (hx : isFinite f x = true) (hint : ¬ Integral f x)
    (hfin : isFinite f y = true) (hsign : sign f y = sign f x)
    (habs : |val f y| =
      (⌊|val f x|⌋ + if roundsAway m (isNeg f x) |val f x| = true then 1 else 0 : ℤ)) :
    RoundsTo f m x y := by
  refine ⟨fun _ => ⟨hfin, ?_, hsign⟩, fun hinf => absurd hx (by simp [hinf])⟩
  rw [val_of_sign_eq hsign, habs, roundMath_val hint, Int.cast_mul]

/-- `lo` and `hi` are the integers around `x`, toward zero and away from it, with the sign of `x`. -/
structure Neighbours (f : Fmt) (x lo hi : FpWord f) : Prop where
  finite_lo : isFinite f lo = true
  finite_hi : isFinite f hi = true
  sign_lo : sign f lo = sign f x
  sign_hi : sign f hi = sign f x
  abs_lo : |val f lo| = ⌊|val f x|⌋
  abs_hi : |val f hi| = ⌊|val f x|⌋ + 1

/-- The neighbour a mode picks is the correct result. -/
theorem Neighbours.roundsTo {lo hi : FpWord f} (h : Neighbours f x lo hi) (hx : isFinite f x = true)
    (hint : ¬ Integral f x) (m : Mode) :
    RoundsTo f m x (if roundsAway m (isNeg f x) |val f x| = true then hi else lo) := by
  cases hr : roundsAway m (isNeg f x) |val f x| with
  | true => exact roundsTo_of_abs_val hx hint h.finite_hi h.sign_hi (by simp [hr, h.abs_hi])
  | false => exact roundsTo_of_abs_val hx hint h.finite_lo h.sign_lo (by simp [hr, h.abs_lo])

/-! ### Constants -/

/-- A power of two stands in the exponent field (R66). -/
theorem abs_val_pack_zero (s : BitVec 1) {be : ℕ} (hlo : 1 ≤ be) (hhi : be < 2 ^ f.E) :
    |val f (pack f s (BitVec.ofNat f.E be) 0)| = (2 : ℚ) ^ ((be : ℤ) - f.bias) := by
  have hmag : (mag f (pack f s (BitVec.ofNat f.E be) 0)).toNat = be * 2 ^ f.F := by
    rw [mag_toNat, bexp_pack, mant_pack, BitVec.toNat_ofNat, Nat.mod_eq_of_lt hhi]
    rfl
  rw [abs_val, hmag, magVal_mul_two_pow hlo]

@[simp] theorem sign_zero (s : BitVec 1) : sign f (zero f s) = s := sign_pack s _ _

@[simp] theorem sign_one (s : BitVec 1) : sign f (one f s) = s := sign_pack s _ _

@[simp] theorem sign_two (s : BitVec 1) : sign f (two f s) = s := sign_pack s _ _

theorem isZero_zero (s : BitVec 1) : isZero f (zero f s) = true := by
  rw [isZero_iff, zero, bexp_pack, mant_pack]
  exact ⟨rfl, rfl⟩

section
variable (hwf : f.WF)
include hwf

theorem abs_val_one (s : BitVec 1) : |val f (one f s)| = 1 := by
  have hbias := f.three_le_bias hwf
  have hemaxb := f.emaxb_eq hwf
  have hlt := f.emaxb_lt
  rw [one, abs_val_pack_zero s (by omega) (by omega), sub_self, zpow_zero]

theorem abs_val_two (s : BitVec 1) : |val f (two f s)| = 2 := by
  have hbias := f.three_le_bias hwf
  have hemaxb := f.emaxb_eq hwf
  have hlt := f.emaxb_lt
  rw [two, abs_val_pack_zero s (by omega) (by omega), Nat.cast_add, Nat.cast_one, add_sub_cancel_left,
    zpow_one]

/-- A magnitude up to one is finite in every format. -/
theorem isFinite_of_abs_val_le_one {y : FpWord f} (h : |val f y| ≤ 1) : isFinite f y = true := by
  have hbias := f.three_le_bias hwf
  have hlt : |val f y| < (2 : ℚ) ^ (1 : ℤ) := h.trans_lt (by norm_num)
  rw [abs_val_lt_two_zpow_iff y (by omega)] at hlt
  exact isFinite_of_exponent_le hwf (by omega)

theorem floor_abs_val_of_exponent_neg (h : exponent f x ≤ -1) : ⌊|val f x|⌋ = 0 :=
  Int.floor_eq_zero_iff.mpr ⟨abs_nonneg _, (abs_val_lt_one_iff hwf).mpr h⟩

/-- Zero and one of its sign are the neighbours of a value of magnitude below one. -/
theorem neighbours_of_exponent_neg (h : exponent f x ≤ -1) :
    Neighbours f x (zero f (sign f x)) (one f (sign f x)) := by
  have hfloor := floor_abs_val_of_exponent_neg hwf h
  have hzero : |val f (zero f (sign f x))| = 0 := by rw [val_of_isZero (isZero_zero _), abs_zero]
  have hone := abs_val_one hwf (sign f x)
  exact {
    finite_lo := isFinite_of_abs_val_le_one hwf (hzero.trans_le zero_le_one)
    finite_hi := isFinite_of_abs_val_le_one hwf hone.le
    sign_lo := sign_zero _
    sign_hi := sign_one _
    abs_lo := by rw [hzero, hfloor, Int.cast_zero]
    abs_hi := by rw [hone, hfloor, Int.cast_zero, zero_add] }

/-- The truncated value and its increment are the neighbours of a value with a fraction. -/
theorem HasFraction.neighbours (hx : HasFraction f x) :
    Neighbours f x (truncBits f x) (incAway f (truncBits f x) (trimOf f x)) where
  finite_lo := by
    refine isFinite_of_exponent_le hwf ?_
    obtain ⟨-, hhi⟩ := hx.of_truncBits
    obtain ⟨-, -, -, hF⟩ := hwf
    omega
  finite_hi := isFinite_incAway hwf hx
  sign_lo := sign_truncBits
  sign_hi := (sign_incAway _ _).trans sign_truncBits
  abs_lo := (floor_abs_val hwf hx).symm
  abs_hi := by rw [abs_val_incAway hwf hx, floor_abs_val hwf hx]

end

end Sys2Proof.Machine
end

section
/-!
RNDM under each mode (`42_mode_rounding.md` R91 to R94).  The comparisons of bits by which it picks a
neighbour are comparisons of the fraction of the magnitude with one half.
-/

namespace Sys2Proof.Machine

variable {f : Fmt} {x : FpWord f}

/-! ### Magnitudes below one -/

section
variable (hwf : f.WF) (hexp : exponent f x ≤ -1)
include hwf hexp

theorem fract_abs_val_of_exponent_neg : Int.fract |val f x| = |val f x| :=
  Int.fract_eq_self.mpr ⟨abs_nonneg _, (abs_val_lt_one_iff hwf).mpr hexp⟩

theorem half_le_abs_val_iff : 1 / 2 ≤ |val f x| ↔ exponent f x = -1 := by
  have hbias := f.three_le_bias hwf
  rw [one_div, ← zpow_neg_one, two_zpow_le_abs_val_iff x (by omega)]
  omega

theorem half_lt_abs_val_iff : 1 / 2 < |val f x| ↔ exponent f x = -1 ∧ (mant f x).toNat ≠ 0 := by
  have hbias := f.three_le_bias hwf
  rw [lt_iff_le_and_ne, half_le_abs_val_iff hwf hexp]
  refine and_congr_right fun h => not_congr ?_
  rw [← abs_val_eq_two_zpow_exponent_iff (by omega), h, zpow_neg_one, ← one_div, eq_comm]

/-- R92 picks the neighbour its mode asks for; a tie under NE goes to zero, which is even. -/
theorem roundSmall_eq_ite (m : Mode) :
    roundSmall f (sign f x) (exponent f x) (mant f x) m =
      if roundsAway m (isNeg f x) |val f x| = true then one f (sign f x) else zero f (sign f x) := by
  have hfract := fract_abs_val_of_exponent_neg hwf hexp
  have hfloor := floor_abs_val_of_exponent_neg hwf hexp
  cases m with
  | dn => obtain ⟨hs, -⟩ | ⟨hs, -⟩ := sign_cases x <;> simp [roundSmall, roundsAway, isNeg, hs]
  | up => obtain ⟨hs, -⟩ | ⟨hs, -⟩ := sign_cases x <;> simp [roundSmall, roundsAway, isNeg, hs]
  | tz => rfl
  | na => simp only [roundSmall, roundsAway, hfract, half_le_abs_val_iff hwf hexp, decide_eq_true_eq]
  | ne =>
    simp only [roundSmall, roundsAway, hfract, hfloor, half_lt_abs_val_iff hwf hexp, Int.zero_emod,
      zero_ne_one, and_false, or_false, decide_eq_true_eq]

end

/-! ### Magnitudes with a fraction -/

section
variable (hwf : f.WF) (hx : HasFraction f x)
include hx

theorem two_pow_trimOf_eq : 2 ^ trimOf f x = 2 * half f x := by
  have htrim := hx.trimOf_eq
  obtain ⟨-, hhi⟩ := hx
  rw [half, ← pow_succ', Nat.sub_add_cancel (by omega)]

include hwf

theorem fract_abs_val : Int.fract |val f x| = rem f x / 2 ^ trimOf f x := by
  rw [← Int.self_sub_floor, floor_abs_val hwf hx, abs_val_sub_abs_val_truncBits hwf hx]

/-- The remainder stands to `half` as the fraction to one half. -/
theorem fract_abs_val_sub_half : Int.fract |val f x| - 1 / 2 = (rem f x - half f x) / 2 ^ trimOf f x := by
  have hpow : (2 : ℚ) ^ trimOf f x = 2 * half f x := by exact_mod_cast two_pow_trimOf_eq hx
  have hhalf : (half f x : ℚ) ≠ 0 := by simp [half]
  rw [fract_abs_val hwf hx, hpow]
  field_simp

theorem half_le_fract_iff : 1 / 2 ≤ Int.fract |val f x| ↔ half f x ≤ rem f x := by
  rw [← sub_nonneg, fract_abs_val_sub_half hwf hx, le_div_iff₀ (by positivity), zero_mul, sub_nonneg,
    Nat.cast_le]

theorem fract_eq_half_iff : Int.fract |val f x| = 1 / 2 ↔ rem f x = half f x := by
  rw [← sub_eq_zero, fract_abs_val_sub_half hwf hx, div_eq_zero_iff,
    or_iff_left (pow_ne_zero _ two_ne_zero), sub_eq_zero, Nat.cast_inj]

theorem half_lt_fract_iff : 1 / 2 < Int.fract |val f x| ↔ half f x < rem f x := by
  rw [lt_iff_le_and_ne, half_le_fract_iff hwf hx, ne_comm, Ne, fract_eq_half_iff hwf hx]
  omega

theorem floor_abs_val_eq_div : ⌊|val f x|⌋ = (significand f x / 2 ^ trimOf f x : ℕ) := by
  have h := (floor_abs_val hwf hx).trans (abs_val_truncBits hwf hx)
  rwa [← Int.cast_natCast, Int.cast_inj] at h

theorem floor_abs_val_of_exponent_zero (hexp : exponent f x = 0) : ⌊|val f x|⌋ = 1 := by
  have htrim : trimOf f x = f.F := by
    have := hx.trimOf_eq
    omega
  rw [floor_abs_val_eq_div hwf hx, htrim, significand, Nat.add_div_left _ (Nat.two_pow_pos _),
    Nat.div_eq_of_lt (mant f x).isLt]
  rfl

/-- The literal of R94 is the neighbour of magnitude two. -/
theorem two_eq_incAway (hexp : exponent f x = 0) :
    two f (sign f x) = incAway f (truncBits f x) (trimOf f x) := by
  have hup := (hx.neighbours hwf).abs_hi
  rw [floor_abs_val_of_exponent_zero hwf hx hexp] at hup
  refine eq_iff_sign_mag.mpr ⟨by rw [sign_two, sign_incAway, sign_truncBits], ?_⟩
  rw [← abs_val_eq_abs_val_iff, abs_val_two hwf, hup]
  norm_num

/-- The units bit of the magnitude is the mantissa bit at `trim`. -/
theorem getLsbD_trimOf (hexp : 1 ≤ exponent f x) :
    (mant f (truncBits f x)).getLsbD (trimOf f x) = decide (⌊|val f x|⌋ % 2 = 1) := by
  have htrim := hx.trimOf_eq
  obtain ⟨k, hk⟩ : ∃ k, f.F = trimOf f x + k + 1 := Nat.exists_eq_add_of_lt (by omega)
  have hpow : 2 ^ f.F = 2 ^ trimOf f x * (2 * 2 ^ k) := by rw [← pow_succ', ← pow_add, hk, add_assoc]
  have hquot : significand f x / 2 ^ trimOf f x = 2 * 2 ^ k + (mant f x).toNat / 2 ^ trimOf f x := by
    rw [significand, hpow, Nat.mul_add_div (Nat.two_pow_pos _)]
  rw [floor_abs_val_eq_div hwf hx, hquot, ← BitVec.testBit_toNat, mant_truncBits,
    Nat.testBit_eq_decide_div_mod_eq, Nat.mul_div_cancel _ (Nat.two_pow_pos _), decide_eq_decide]
  omega

/-- R94 picks the neighbour whose units bit is even. -/
theorem tieToEven_eq_ite :
    tieToEven f (sign f x) (exponent f x) (truncBits f x) (incAway f (truncBits f x) (trimOf f x))
        (trimOf f x) =
      if ⌊|val f x|⌋ % 2 = 1 then incAway f (truncBits f x) (trimOf f x) else truncBits f x := by
  have htrim := hx.trimOf_eq
  obtain ⟨hlo, -⟩ := id hx
  obtain hexp | hexp := hlo.eq_or_lt'
  · rw [tieToEven, if_pos (.inl hexp), two_eq_incAway hwf hx hexp,
      floor_abs_val_of_exponent_zero hwf hx hexp]
    rfl
  · rw [tieToEven, if_neg (by omega), getLsbD_trimOf hwf hx hexp]
    simp only [decide_eq_true_eq]

/-- R93 picks the neighbour its mode asks for. -/
theorem roundLarge_eq_ite (m : Mode) :
    roundLarge f (sign f x) (exponent f x) (truncBits f x) (incAway f (truncBits f x) (trimOf f x))
        (rem f x) (half f x) (trimOf f x) m =
      if roundsAway m (isNeg f x) |val f x| = true then incAway f (truncBits f x) (trimOf f x)
      else truncBits f x := by
  cases m with
  | dn => simp only [roundLarge, roundsAway, isNeg, beq_iff_eq]
  | up => obtain ⟨hs, -⟩ | ⟨hs, -⟩ := sign_cases x <;> simp [roundLarge, roundsAway, isNeg, hs]
  | tz => rfl
  | na => simp only [roundLarge, roundsAway, half_le_fract_iff hwf hx, decide_eq_true_eq]
  | ne =>
    simp only [roundLarge, roundsAway, half_lt_fract_iff hwf hx, fract_eq_half_iff hwf hx,
      tieToEven_eq_ite hwf hx, decide_eq_true_eq]
    obtain hlt | heq | hgt := lt_trichotomy (rem f x) (half f x)
    · rw [if_neg hlt.not_gt, if_pos hlt, if_neg (by omega)]
    · simp [heq]
    · rw [if_pos hgt, if_pos (.inl hgt)]

end

end Sys2Proof.Machine
end

section
/-!
The rounding commands by the domain of their operand (`41_fixed_rule_rounding.md` R81 to R84,
`42_mode_rounding.md` R91).  All five results pass through what is not finite, zero, or too large to
have a fraction; elsewhere the magnitude is below one, or the primitives of R68 and R69 apply.
-/

namespace Sys2Proof.Machine

variable {f : Fmt} {x : FpWord f}

/-- The operands every rounding command returns as they are. -/
def PassesThrough (f : Fmt) (x : FpWord f) : Prop :=
  isInfOrNan f x = true ∨ isZero f x = true ∨ (f.F : ℤ) ≤ exponent f x

theorem guards_of_not_passesThrough (h : ¬ PassesThrough f x) :
    isInfOrNan f x = false ∧ isZero f x = false ∧ exponent f x < f.F := by
  simpa [PassesThrough] using h

theorem operand_cases (x : FpWord f) :
    PassesThrough f x ∨ ¬ PassesThrough f x ∧ exponent f x ≤ -1 ∨
      ¬ PassesThrough f x ∧ HasFraction f x := by
  by_cases h : PassesThrough f x
  · exact .inl h
  · obtain ⟨-, -, hF⟩ := guards_of_not_passesThrough h
    obtain hlo | hlo := le_or_gt (exponent f x) (-1)
    · exact .inr (.inl ⟨h, hlo⟩)
    · exact .inr (.inr ⟨h, by omega, by omega⟩)

/-! ### Pass-through -/

theorem zero_sign_of_isZero (h : isZero f x = true) : zero f (sign f x) = x := by
  refine eq_iff_sign_mag.mpr ⟨sign_zero _, abs_val_eq_abs_val_iff.mp ?_⟩
  rw [val_of_isZero (isZero_zero _), val_of_isZero h]

theorem exponent_of_isZero (h : isZero f x = true) : exponent f x = -f.bias :=
  exponent_of_bexp_zero f x (bexp_of_isZero_or_isSubnormal (.inl h))

theorem PassesThrough.rndm_eq (h : PassesThrough f x) (m : Mode) : rndm f x m = x := by
  obtain h | h | h := h
  · exact rndm_of_infOrNan f x m h
  · exact rndm_of_zero f x m h
  · exact rndm_of_large_exponent f x m h

/-- TRUNC has no arm for zeros: it gives the zero of the operand's sign (R81). -/
theorem PassesThrough.fixed_rules_eq (hwf : f.WF) (h : PassesThrough f x) :
    trunc f x = x ∧ ceil f x = x ∧ round f x = x := by
  obtain h | h | h := h
  · exact fixed_rules_of_infOrNan f x h
  · have hbias := f.three_le_bias hwf
    have hexp := exponent_of_isZero h
    refine ⟨?_, by simp [ceil, h], by simp [round, h]⟩
    rw [trunc, zero_sign_of_isZero h, if_pos (by omega : exponent f x ≤ -1), ite_self, ite_self]
  · simp [trunc, ceil, round, h]

/-! ### The equations off the pass-through -/

/-- The half bit is set exactly when the remainder reaches `half` (R84). -/
theorem getLsbD_halfBit (hx : HasFraction f x) :
    (mant f x).getLsbD (trimOf f x - 1) = decide (half f x ≤ rem f x) := by
  have hrem : rem f x < 2 * half f x := two_pow_trimOf_eq hx ▸ Nat.mod_lt _ (Nat.two_pow_pos _)
  have hbit : (mant f x).toNat / half f x % 2 = rem f x / half f x := by
    rw [rem, two_pow_trimOf_eq hx, mul_comm, Nat.mod_mul_right_div_self]
  have hlt : rem f x / half f x < 2 := Nat.div_lt_of_lt_mul (by rwa [mul_comm])
  have hle : 1 ≤ rem f x / half f x ↔ 1 * half f x ≤ rem f x := Nat.le_div_iff_mul_le (Nat.two_pow_pos _)
  rw [← BitVec.testBit_toNat, Nat.testBit_eq_decide_div_mod_eq, ← half, hbit, decide_eq_decide]
  omega

section
variable (hpass : ¬ PassesThrough f x)
include hpass

theorem rndm_of_exponent_neg (hexp : exponent f x ≤ -1) (m : Mode) :
    rndm f x m = roundSmall f (sign f x) (exponent f x) (mant f x) m := by
  obtain ⟨hinf, hzero, hF⟩ := guards_of_not_passesThrough hpass
  rw [rndm, hinf, hzero, Bool.or_self, if_neg Bool.false_ne_true, if_neg hF.not_ge, if_pos hexp]

theorem trunc_of_exponent_neg (hexp : exponent f x ≤ -1) : trunc f x = zero f (sign f x) := by
  obtain ⟨hinf, -, hF⟩ := guards_of_not_passesThrough hpass
  rw [trunc, hinf, if_neg Bool.false_ne_true, if_neg hF.not_ge, if_pos hexp]

theorem ceil_of_exponent_neg (hexp : exponent f x ≤ -1) :
    ceil f x = if isNeg f x = true then zero f 1#1 else one f 0#1 := by
  obtain ⟨hinf, hzero, hF⟩ := guards_of_not_passesThrough hpass
  rw [ceil, hinf, hzero, Bool.or_self, if_neg Bool.false_ne_true, if_neg hF.not_ge, if_pos hexp]

theorem round_of_exponent_neg (hexp : exponent f x ≤ -1) :
    round f x = if exponent f x = -1 then one f (sign f x) else zero f (sign f x) := by
  obtain ⟨hinf, hzero, hF⟩ := guards_of_not_passesThrough hpass
  rw [round, hinf, hzero, Bool.or_self, if_neg Bool.false_ne_true, if_neg hF.not_ge]
  split
  · rfl
  · rw [if_pos (by omega)]

theorem rndm_of_hasFraction (hx : HasFraction f x) (m : Mode) :
    rndm f x m = if truncBits f x = x then x else
      roundLarge f (sign f x) (exponent f x) (truncBits f x) (incAway f (truncBits f x) (trimOf f x))
        (rem f x) (half f x) (trimOf f x) m := by
  obtain ⟨hinf, hzero, hF⟩ := guards_of_not_passesThrough hpass
  obtain ⟨hlo, -⟩ := hx
  rw [rndm, hinf, hzero, Bool.or_self, if_neg Bool.false_ne_true, if_neg hF.not_ge, if_neg (by omega)]
  simp only [beq_iff_eq]

theorem trunc_of_hasFraction (hx : HasFraction f x) : trunc f x = truncBits f x := by
  obtain ⟨hinf, -, hF⟩ := guards_of_not_passesThrough hpass
  obtain ⟨hlo, -⟩ := hx
  rw [trunc, hinf, if_neg Bool.false_ne_true, if_neg hF.not_ge, if_neg (by omega)]

theorem ceil_of_hasFraction (hx : HasFraction f x) :
    ceil f x = if truncBits f x = x then x
      else if isNeg f x = true then truncBits f x else incAway f (truncBits f x) (trimOf f x) := by
  obtain ⟨hinf, hzero, hF⟩ := guards_of_not_passesThrough hpass
  obtain ⟨hlo, -⟩ := hx
  rw [ceil, hinf, hzero, Bool.or_self, if_neg Bool.false_ne_true, if_neg hF.not_ge, if_neg (by omega)]
  simp only [beq_iff_eq]

theorem round_of_hasFraction (hx : HasFraction f x) :
    round f x =
      if half f x ≤ rem f x then incAway f (truncBits f x) (trimOf f x) else truncBits f x := by
  obtain ⟨hinf, hzero, hF⟩ := guards_of_not_passesThrough hpass
  obtain ⟨hlo, -⟩ := id hx
  rw [round, hinf, hzero, Bool.or_self, getLsbD_halfBit hx, if_neg Bool.false_ne_true,
    if_neg hF.not_ge, if_neg (by omega), if_neg (by omega)]
  simp only [decide_eq_true_eq]

end

/-! ### RNDM rounds correctly -/

theorem PassesThrough.integral (hwf : f.WF) (h : PassesThrough f x) (hfin : isFinite f x = true) :
    Integral f x := by
  obtain h | h | h := h
  · simp [isFinite, h] at hfin
  · exact ⟨0, by rw [val_of_isZero h, Int.cast_zero]⟩
  · exact integral_of_F_le_exponent hwf h

theorem isFinite_of_not_passesThrough (h : ¬ PassesThrough f x) : isFinite f x = true := by
  obtain ⟨hinf, -⟩ := guards_of_not_passesThrough h
  rw [isFinite, hinf, Bool.not_false]

/-- R91, by the domain of the operand and the neighbour picked there. -/
theorem rndm_roundsTo (hwf : f.WF) (x : FpWord f) (m : Mode) : RoundsTo f m x (rndm f x m) := by
  obtain hpass | ⟨hpass, hexp⟩ | ⟨hpass, hx⟩ := operand_cases x
  · rw [hpass.rndm_eq]
    exact roundsTo_self (hpass.integral hwf) m
  · have hfin := isFinite_of_not_passesThrough hpass
    obtain ⟨-, hzero, -⟩ := guards_of_not_passesThrough hpass
    rw [rndm_of_exponent_neg hpass hexp, roundSmall_eq_ite hwf hexp]
    exact (neighbours_of_exponent_neg hwf hexp).roundsTo hfin
      (not_integral_of_exponent_neg hwf hzero hexp) m
  · have hfin := isFinite_of_not_passesThrough hpass
    rw [rndm_of_hasFraction hpass hx, roundLarge_eq_ite hwf hx]
    split
    next ht => exact roundsTo_self (fun _ => (integral_iff_truncBits hwf hx).mpr ht) m
    next ht => exact (hx.neighbours hwf).roundsTo hfin (mt (integral_iff_truncBits hwf hx).mp ht) m

/-! ### The fixed rules are RNDM at a fixed mode (R85) -/

theorem trunc_eq_rndm (hwf : f.WF) (x : FpWord f) : trunc f x = rndm f x .tz := by
  obtain hpass | ⟨hpass, hexp⟩ | ⟨hpass, hx⟩ := operand_cases x
  · obtain ⟨htrunc, -⟩ := hpass.fixed_rules_eq hwf
    rw [htrunc, hpass.rndm_eq]
  · rw [trunc_of_exponent_neg hpass hexp, rndm_of_exponent_neg hpass hexp, roundSmall]
  · rw [trunc_of_hasFraction hpass hx, rndm_of_hasFraction hpass hx, roundLarge]
    split
    next ht => exact ht
    next => rfl

theorem ceil_eq_rndm (hwf : f.WF) (x : FpWord f) : ceil f x = rndm f x .up := by
  obtain hpass | ⟨hpass, hexp⟩ | ⟨hpass, hx⟩ := operand_cases x
  · obtain ⟨-, hceil, -⟩ := hpass.fixed_rules_eq hwf
    rw [hceil, hpass.rndm_eq]
  · rw [ceil_of_exponent_neg hpass hexp, rndm_of_exponent_neg hpass hexp, roundSmall]
    simp only [isNeg, beq_iff_eq]
  · rw [ceil_of_hasFraction hpass hx, rndm_of_hasFraction hpass hx, roundLarge]
    simp only [isNeg, beq_iff_eq]

theorem round_eq_rndm (hwf : f.WF) (x : FpWord f) : round f x = rndm f x .na := by
  obtain hpass | ⟨hpass, hexp⟩ | ⟨hpass, hx⟩ := operand_cases x
  · obtain ⟨-, -, hround⟩ := hpass.fixed_rules_eq hwf
    rw [hround, hpass.rndm_eq]
  · rw [round_of_exponent_neg hpass hexp, rndm_of_exponent_neg hpass hexp, roundSmall]
  · rw [round_of_hasFraction hpass hx, rndm_of_hasFraction hpass hx, roundLarge]
    by_cases ht : truncBits f x = x
    · have hhalf : 0 < half f x := Nat.two_pow_pos _
      have hrem : rem f x = 0 := (integral_iff_rem hwf hx).mp ((integral_iff_truncBits hwf hx).mpr ht)
      rw [if_neg (by omega : ¬ half f x ≤ rem f x), if_pos ht, ht]
    · rw [if_neg ht]

theorem trunc_roundsTo (hwf : f.WF) (x : FpWord f) : RoundsTo f .tz x (trunc f x) :=
  trunc_eq_rndm hwf x ▸ rndm_roundsTo hwf x .tz

theorem ceil_roundsTo (hwf : f.WF) (x : FpWord f) : RoundsTo f .up x (ceil f x) :=
  ceil_eq_rndm hwf x ▸ rndm_roundsTo hwf x .up

theorem round_roundsTo (hwf : f.WF) (x : FpWord f) : RoundsTo f .na x (round f x) :=
  round_eq_rndm hwf x ▸ rndm_roundsTo hwf x .na

/-- FLOOR of a negative operand is the mirror image of CEIL, and of another it is TRUNC (R83). -/
theorem floor_roundsTo (hwf : f.WF) (x : FpWord f) : RoundsTo f .dn x (floor f x) := by
  unfold floor
  split
  next hneg => exact (ceil_roundsTo hwf (neg f x)).neg
  next hneg =>
    have hs := (BitVec.eq_zero_or_eq_one (sign f x)).resolve_right (by simpa [isNeg] using hneg)
    have hmode : roundMath (val f x) .tz = roundMath (val f x) .dn := by
      rw [roundMath_dn, roundMath_tz_of_nonneg (val_of_sign_zero hs ▸ magVal_nonneg _)]
    have h := trunc_roundsTo hwf x
    rwa [RoundsTo, hmode] at h

theorem floor_eq_rndm (hwf : f.WF) (x : FpWord f) : floor f x = rndm f x .dn :=
  (floor_roundsTo hwf x).unique (rndm_roundsTo hwf x .dn)

end Sys2Proof.Machine
end

section
/-!
The statements about the fixed-rule commands (`41_fixed_rule_rounding.md`).
-/

namespace Sys2Proof.Machine

/-- Settles O16: TRUNC answers with a float response and no signal, and is RNDM under TZ. -/
theorem truncRoundsTowardZero : Obligations.TruncRoundsTowardZero :=
  fun _ b hwf => ⟨_, rfl, trunc_roundsTo hwf b.latch.x⟩

/-- Settles O17: CEIL answers with a float response and no signal, and is RNDM under UP. -/
theorem ceilRoundsUp : Obligations.CeilRoundsUp :=
  fun _ b hwf => ⟨_, rfl, ceil_roundsTo hwf b.latch.x⟩

/-- Settles O18: FLOOR answers with a float response and no signal; it mirrors CEIL or is TRUNC. -/
theorem floorRoundsDown : Obligations.FloorRoundsDown :=
  fun _ b hwf => ⟨_, rfl, floor_roundsTo hwf b.latch.x⟩

/-- Settles O19: ROUND answers with a float response and no signal, and is RNDM under NA. -/
theorem roundRoundsTiesAway : Obligations.RoundRoundsTiesAway :=
  fun _ b hwf => ⟨_, rfl, round_roundsTo hwf b.latch.x⟩

/-- Settles O20: the patterns are equal domain by domain, FLOOR's because a correct result is unique;
and equal patterns are equal responses. -/
theorem fixedRulesEqualFixedModes : Obligations.FixedRulesEqualFixedModes := by
  refine ⟨fun f x hwf => ⟨⟨trunc_eq_rndm hwf x, ceil_eq_rndm hwf x, floor_eq_rndm hwf x,
    round_eq_rndm hwf x⟩, trunc_roundsTo hwf x, ceil_roundsTo hwf x, floor_roundsTo hwf x,
    round_roundsTo hwf x⟩, fun s hwf => ?_⟩
  have hanswer {y z : FpWord s.fmt} (h : y = z) :
      s.answer (floatResponse s.fmt y Signals.none) = s.answer (floatResponse s.fmt z Signals.none) := by
    rw [h]
  exact ⟨hanswer (trunc_eq_rndm hwf s.x), hanswer (ceil_eq_rndm hwf s.x),
    hanswer (floor_eq_rndm hwf s.x), hanswer (round_eq_rndm hwf s.x)⟩

/-- Settles O21: a correct result is integral, within one and its own rounding, and the two directed
rules give the floor and the ceiling of the value. -/
theorem fixedRulesEncloseAndRepeat : Obligations.FixedRulesEncloseAndRepeat := by
  intro f x hwf
  have htrunc := trunc_roundsTo hwf
  have hceil := ceil_roundsTo hwf
  have hfloor := floor_roundsTo hwf
  have hround := round_roundsTo hwf
  refine ⟨fun hx y hy => ?_, ⟨(htrunc x).again (htrunc _), (hceil x).again (hceil _),
    (hfloor x).again (hfloor _), (hround x).again (hround _)⟩,
    fun hx => ⟨(hfloor x).val_le hx, (hceil x).le_val hx⟩⟩
  obtain ⟨m, h⟩ : ∃ m, RoundsTo f m x y := by
    simp only [List.mem_cons, List.not_mem_nil, or_false] at hy
    obtain rfl | rfl | rfl | rfl := hy
    exacts [⟨_, htrunc x⟩, ⟨_, hceil x⟩, ⟨_, hfloor x⟩, ⟨_, hround x⟩]
  exact ⟨h.isFinite_eq.trans hx, h.integral hx, h.abs_sub_lt_one hx⟩

end Sys2Proof.Machine
end

section
/-!
RNDM on the two domains where it rounds (`42_mode_rounding.md` R92, R94).  The exponent of an infinity or
a NaN is above F, and that of a zero below −1, so the exponent says which operands do not pass through.
-/

namespace Sys2Proof.Machine

variable {f : Fmt} {x : FpWord f} (hwf : f.WF)
include hwf

theorem not_passesThrough_of_exponent_lt_F (hzero : isZero f x = false) (hF : exponent f x < f.F) :
    ¬ PassesThrough f x := by
  have hfin : isFinite f x = true := by
    refine isFinite_of_exponent_le hwf ?_
    obtain ⟨-, -, -, hbias⟩ := hwf
    omega
  rintro (hinf | hz | hlarge)
  · simp [isFinite, hinf] at hfin
  · simp [hzero] at hz
  · omega

theorem isZero_of_exponent_nonneg (hexp : 0 ≤ exponent f x) : isZero f x = false := by
  have hbias := f.three_le_bias hwf
  rw [Bool.eq_false_iff]
  intro hzero
  have := exponent_of_isZero hzero
  omega

theorem HasFraction.not_passesThrough (hx : HasFraction f x) : ¬ PassesThrough f x := by
  obtain ⟨hlo, hhi⟩ := hx
  exact not_passesThrough_of_exponent_lt_F hwf (isZero_of_exponent_nonneg hwf hlo) (by omega)

/-- A non-zero magnitude below one is rounded by the table of R92. -/
theorem rndm_eq_roundSmall (hzero : isZero f x = false) (hexp : exponent f x ≤ -1) (m : Mode) :
    rndm f x m = roundSmall f (sign f x) (exponent f x) (mant f x) m :=
  rndm_of_exponent_neg (not_passesThrough_of_exponent_lt_F hwf hzero (by omega)) hexp m

/-- A tie is not integral, because half a unit is more than nothing. -/
theorem truncBits_ne_of_tie (hx : HasFraction f x) (htie : rem f x = half f x) : truncBits f x ≠ x := by
  rw [Ne, ← integral_iff_truncBits hwf hx, integral_iff_rem hwf hx, htie]
  exact (Nat.two_pow_pos _).ne'

/-- A tie under NE is decided by R94. -/
theorem rndm_ne_of_tie (hx : HasFraction f x) (htie : rem f x = half f x) :
    rndm f x .ne =
      tieToEven f (sign f x) (exponent f x) (truncBits f x) (incAway f (truncBits f x) (trimOf f x))
        (trimOf f x) := by
  rw [rndm_of_hasFraction (hx.not_passesThrough hwf) hx, if_neg (truncBits_ne_of_tie hwf hx htie),
    roundLarge, htie, if_neg (lt_irrefl _), if_neg (lt_irrefl _)]

end Sys2Proof.Machine
end

section
/-!
The statements about the commands that round under a mode (`42_mode_rounding.md`).
-/

namespace Sys2Proof.Machine

/-- Settles O22: RNDM answers with a float response and no signal, and rounds correctly (R91). -/
theorem rndmRoundsUnderItsMode : Obligations.RndmRoundsUnderItsMode :=
  fun _ b m hwf => ⟨_, rfl, rndm_roundsTo hwf b.latch.x m⟩

/-- Settles O23: the exponent says that the operand does not pass through, and `small` is the table. -/
theorem belowOneFollowsTheTable : Obligations.BelowOneFollowsTheTable := by
  intro f x hwf hzero hexp
  have hsmall := rndm_eq_roundSmall hwf hzero hexp
  constructor <;> intro hs
  all_goals
    rw [hs] at hsmall
    exact ⟨hsmall .dn, hsmall .up, hsmall .tz, hsmall .na, hsmall .ne⟩

/-- Settles O24: the tie is R94's; at exponent 0 its literal is the neighbour away from zero, and above
that `trim` is the index of a mantissa bit. -/
theorem tieGoesToTheEvenNeighbour : Obligations.TieGoesToTheEvenNeighbour := by
  intro f x hwf hlo hhi htie
  have hx : HasFraction f x := ⟨hlo, hhi⟩
  have htrim := hx.trimOf_eq
  rw [rndm_ne_of_tie hwf hx htie, tieToEven]
  exact ⟨fun hexp => ⟨if_pos (.inl hexp), two_eq_incAway hwf hx hexp⟩,
    fun hexp => if_neg (by omega)⟩

/-- Settles O25: a correct result is less than one away and is its own rounding. -/
theorem rndmResultIsAFixedPoint : Obligations.RndmResultIsAFixedPoint := by
  intro f x m m' hwf
  have hround := rndm_roundsTo hwf x m
  exact ⟨hround, hround.abs_sub_lt_one, hround.again (rndm_roundsTo hwf _ m')⟩

/-- Settles O26: RNDC hands the sampled mode on to RNDM. -/
theorem rndcRoundsUnderTheAmbientMode : Obligations.RndcRoundsUnderTheAmbientMode := by
  intro f b m hwf hmode
  have hexec : exec .rndc ⟨f, b⟩ = exec (.rndm m) ⟨f, b⟩ := State.withAmbientMode_of_code _ _ m hmode
  exact ⟨hexec, hexec ▸ rndmRoundsUnderItsMode f b m hwf⟩

end Sys2Proof.Machine
end

section
/-!
The range tests of the bounded conversions (`43_bounded_conversion.md` R102, R103).  The exponent of an
integral value says how its magnitude stands to a power of two, and an integer below a power of two is
at most one less.
-/

namespace Sys2Proof.Machine

variable {f : Fmt} {r : FpWord f} (hwf : f.WF)

/-- The sign bit says on which side of zero the magnitude is taken. -/
theorem isNeg_cases (x : FpWord f) :
    (isNeg f x = false ∧ val f x = |val f x|) ∨ (isNeg f x = true ∧ val f x = -|val f x|) := by
  have hval := val_eq_signUnit_mul_abs x
  obtain ⟨hs, hu⟩ | ⟨hs, hu⟩ := sign_cases x
  · exact .inl ⟨by simp [isNeg, hs], by rwa [hu, Int.cast_one, one_mul] at hval⟩
  · exact .inr ⟨by simp [isNeg, hs], by rwa [hu, Int.cast_neg, Int.cast_one, neg_one_mul] at hval⟩

theorem Integral.abs_val_lt_two_pow_iff_le (hint : Integral f r) (n : ℕ) :
    |val f r| < 2 ^ n ↔ |val f r| ≤ 2 ^ n - 1 := by
  obtain ⟨k, hk⟩ := integral_iff_abs_val.mp hint
  rw [hk, le_sub_iff_add_le]
  exact_mod_cast Nat.lt_iff_add_one_le

include hwf

theorem abs_val_lt_two_pow_iff (r : FpWord f) (n : ℕ) : |val f r| < 2 ^ n ↔ exponent f r < n := by
  have hbias := f.three_le_bias hwf
  rw [← zpow_natCast, abs_val_lt_two_zpow_iff r (by omega)]

/-- Of the magnitudes of an exponent only the least is a power of two. -/
theorem abs_val_eq_two_pow_iff (r : FpWord f) (n : ℕ) :
    |val f r| = 2 ^ n ↔ exponent f r = n ∧ (mant f r).toNat = 0 := by
  have hbias := f.three_le_bias hwf
  have hleast (hexp : exponent f r = n) : |val f r| = 2 ^ n ↔ (mant f r).toNat = 0 := by
    rw [← abs_val_eq_two_zpow_exponent_iff (by omega), hexp, zpow_natCast]
  refine ⟨fun h => ?_, fun ⟨hexp, hmant⟩ => (hleast hexp).mpr hmant⟩
  have hge : (n : ℤ) ≤ exponent f r := by
    rw [← not_lt, ← abs_val_lt_two_pow_iff hwf, h]
    exact lt_irrefl _
  have hlt : exponent f r < (n + 1 : ℕ) := by
    rw [← abs_val_lt_two_pow_iff hwf, h]
    exact pow_lt_pow_right₀ one_lt_two n.lt_succ_self
  have hexp : exponent f r = n := by omega
  exact ⟨hexp, (hleast hexp).mp h⟩

/-- R102, at the width `n + 1`: a sign bit and `n` bits of magnitude. -/
theorem inSignedRange_iff (hint : Integral f r) (n : ℕ) :
    inSignedRange f r (n + 1) = true ↔ -(2 : ℚ) ^ n ≤ val f r ∧ val f r ≤ (2 : ℚ) ^ n - 1 := by
  have hpow : (1 : ℚ) ≤ 2 ^ n := one_le_pow₀ one_le_two
  have habs := abs_nonneg (val f r)
  have hwidth : ((n + 1 : ℕ) : ℤ) - 1 = n := by omega
  cases hzero : isZero f r with
  | true =>
    refine iff_of_true (if_pos hzero) ?_
    rw [val_of_isZero hzero]
    constructor <;> linarith
  | false =>
    obtain ⟨hneg, hval⟩ | ⟨hneg, hval⟩ := isNeg_cases r
    · have htest : inSignedRange f r (n + 1) = true ↔ |val f r| ≤ 2 ^ n - 1 := by
        simp [inSignedRange, hzero, hneg, ← abs_val_lt_two_pow_iff hwf,
          ← hint.abs_val_lt_two_pow_iff_le]
      rw [htest, hval, abs_abs, iff_and_self]
      intro
      linarith
    · have htest : inSignedRange f r (n + 1) = true ↔ |val f r| ≤ 2 ^ n := by
        simp [inSignedRange, hzero, hneg, le_iff_lt_or_eq, abs_val_lt_two_pow_iff hwf,
          abs_val_eq_two_pow_iff hwf]
      rw [htest, hval, neg_le_neg_iff, abs_neg, abs_abs, iff_self_and]
      intro
      linarith

/-- R103: a zero of either sign is in, and no other negative value. -/
theorem inUnsignedRange_iff (hint : Integral f r) (w : ℕ) :
    inUnsignedRange f r w = true ↔ 0 ≤ val f r ∧ val f r ≤ (2 : ℚ) ^ w - 1 := by
  cases hzero : isZero f r with
  | true =>
    refine iff_of_true (if_pos hzero) ?_
    rw [val_of_isZero hzero]
    exact ⟨le_rfl, sub_nonneg.mpr (one_le_pow₀ one_le_two)⟩
  | false =>
    obtain ⟨hneg, hval⟩ | ⟨hneg, hval⟩ := isNeg_cases r
    · have htest : inUnsignedRange f r w = true ↔ |val f r| ≤ 2 ^ w - 1 := by
        simp [inUnsignedRange, hzero, hneg, ← abs_val_lt_two_pow_iff hwf,
          ← hint.abs_val_lt_two_pow_iff_le]
      rw [htest, hval, abs_abs, and_iff_right (abs_nonneg _)]
    · have hpos := abs_val_pos hzero
      refine iff_of_false (by simp [inUnsignedRange, hzero, hneg]) fun ⟨hge, _⟩ => ?_
      linarith

end Sys2Proof.Machine
end

section
/-!
The bounded conversion (`43_bounded_conversion.md` R101, R108, R109).  Its range test asks of the rounded
pattern what the target domain asks of the rounded value, so it converts as R109 says; and a valid result
is inexact when rounding changed the operand, which it does exactly to what is not integral.
-/

namespace Sys2Proof.Machine

variable {f : Fmt} {m : Mode} {w : ℕ} {unsigned : Bool} {x y : FpWord f}

/-! ### The domain of a conversion -/

/-- The range test of the rounded pattern decides the target domain. -/
theorem rangeTest_iff_inDomain (hwf : f.WF) (hw : w ≠ 0) (hx : isFinite f x = true) :
    (if unsigned then inUnsignedRange f (rndm f x m) w else inSignedRange f (rndm f x m) w) = true ↔
      InDomain f m w unsigned x := by
  have hround := rndm_roundsTo hwf x m
  have hint := hround.integral hx
  obtain ⟨-, hval, -⟩ := hround.1 hx
  obtain ⟨n, rfl⟩ := Nat.exists_eq_add_of_le' (Nat.one_le_iff_ne_zero.mpr hw)
  rw [InDomain, and_iff_right (Nat.le_add_left 1 n), and_iff_right hx, Nat.add_sub_cancel]
  cases unsigned with
  | true =>
    rw [if_pos rfl, if_pos rfl, inUnsignedRange_iff hwf hint, hval]
    norm_cast
  | false =>
    rw [if_neg Bool.false_ne_true, if_neg Bool.false_ne_true, inSignedRange_iff hwf hint, hval]
    norm_cast

theorem bounded_of_inDomain (hwf : f.WF) (h : InDomain f m w unsigned x) :
    bounded f x m w unsigned = (rndm f x m, false) := by
  obtain ⟨hw, hx, -⟩ := id h
  have hinf : isInfOrNan f x = false := by simpa [isFinite] using hx
  have hw0 : w ≠ 0 := by omega
  rw [bounded, if_neg hw0, hinf, if_neg Bool.false_ne_true,
    if_pos ((rangeTest_iff_inDomain hwf hw0 hx).mpr h)]

theorem bounded_of_not_inDomain (hwf : f.WF) (h : ¬ InDomain f m w unsigned x) :
    bounded f x m w unsigned = (qnan f, true) := by
  refine (bounded_cases f x m w unsigned).resolve_right fun ⟨hw, hinf, htest, _⟩ => h ?_
  exact (rangeTest_iff_inDomain hwf hw (by rw [isFinite, hinf, Bool.not_false])).mp htest

/-- R109 of `BOUNDED`. -/
theorem bounded_convertsTo (hwf : f.WF) (x : FpWord f) (m : Mode) (w : ℕ) (unsigned : Bool) :
    ConvertsTo f m w unsigned x (bounded f x m w unsigned).1 (bounded f x m w unsigned).2 := by
  refine ⟨fun h => ?_, fun h => ?_⟩
  · rw [bounded_of_inDomain hwf h]
    exact ⟨rfl, rndm_roundsTo hwf x m⟩
  · rw [bounded_of_not_inDomain hwf h]
    exact ⟨rfl, rfl⟩

/-- What a bounded conversion gives, as facts about values: a correct rounding of a finite operand, or
`QNAN` with `dom_err`. -/
theorem bounded_result_cases (hwf : f.WF) (x : FpWord f) (m : Mode) (w : ℕ) (unsigned : Bool) :
    (∃ y, bounded f x m w unsigned = (y, false) ∧ isFinite f x = true ∧ RoundsTo f m x y) ∨
      bounded f x m w unsigned = (qnan f, true) := by
  by_cases h : InDomain f m w unsigned x
  · obtain ⟨-, hx, -⟩ := id h
    exact .inl ⟨_, bounded_of_inDomain hwf h, hx, rndm_roundsTo hwf x m⟩
  · exact .inr (bounded_of_not_inDomain hwf h)

/-! ### Inexact results -/

theorem isNan_of_isFinite (h : isFinite f x = true) : isNan f x = false := by
  have hinf : isInfOrNan f x = false := by simpa [isFinite] using h
  rw [isNan, hinf, Bool.false_and]

/-- Rounding keeps exactly the integral operands, as patterns. -/
theorem RoundsTo.eq_self_iff (h : RoundsTo f m x y) (hx : isFinite f x = true) :
    y = x ↔ Integral f x :=
  ⟨fun hyx => hyx ▸ h.integral hx, fun hint => h.unique (roundsTo_self (fun _ => hint) m)⟩

/-- A rounded result is inexact when it differs from the operand, bit for bit: rounding keeps the sign,
so no result is a zero of the other sign. -/
theorem RoundsTo.inexact_iff_ne (h : RoundsTo f m x y) (hx : isFinite f x = true) :
    inexact f x y = true ↔ y ≠ x := by
  obtain ⟨hfin, -, hsign⟩ := h.1 hx
  have hnum : numEq f y x = true ↔ y = x := by
    rw [numEq_iff_val, val_eq_val_iff_of_sign_eq hsign]
  rw [inexact, isNan_of_isFinite hfin, Bool.not_false, Bool.true_and, Bool.not_eq_true', ne_eq, ← hnum,
    Bool.not_eq_true]

theorem inexact_bounded_iff_ne (hwf : f.WF) (x : FpWord f) (m : Mode) (w : ℕ) (unsigned : Bool) :
    inexact f x (bounded f x m w unsigned).1 = true ↔
      (bounded f x m w unsigned).2 = false ∧ (bounded f x m w unsigned).1 ≠ x := by
  obtain ⟨y, hb, hx, hround⟩ | hb := bounded_result_cases hwf x m w unsigned
  · rw [hb, hround.inexact_iff_ne hx, and_iff_right rfl]
  · simp [hb, inexact_qnan hwf]

/-- R108: `nx` of a valid conversion says that the operand is not an integer. -/
theorem inexact_bounded_iff_not_integral (hwf : f.WF) (x : FpWord f) (m : Mode) (w : ℕ)
    (unsigned : Bool) :
    inexact f x (bounded f x m w unsigned).1 = true ↔
      (bounded f x m w unsigned).2 = false ∧ ¬ Integral f x := by
  rw [inexact_bounded_iff_ne hwf]
  refine and_congr_right fun hvalid => not_congr ?_
  obtain ⟨y, hb, hx, hround⟩ | hb := bounded_result_cases hwf x m w unsigned
  · rw [hb, hround.eq_self_iff hx]
  · rw [hb] at hvalid
    nomatch hvalid

/-! ### The statements -/

/-- Settles O27: FROMFP answers with `BOUNDED` in the signed domain, whose range test decides R109's. -/
theorem fromfpConvertsIntoTheSignedDomain : Obligations.FromfpConvertsIntoTheSignedDomain :=
  fun _ b m w hwf => ⟨_, _, rfl, bounded_convertsTo hwf b.latch.x m w false⟩

/-- Settles O28: UFROMFP answers with `BOUNDED` in the unsigned domain, whose range test decides
R109's. -/
theorem ufromfpConvertsIntoTheUnsignedDomain : Obligations.UfromfpConvertsIntoTheUnsignedDomain :=
  fun _ b m w hwf => ⟨_, _, rfl, bounded_convertsTo hwf b.latch.x m w true⟩

/-- Settles O29: FROMFPX converts as FROMFP does, and its result is inexact when rounding changed the
operand. -/
theorem fromfpxReportsInexactness : Obligations.FromfpxReportsInexactness :=
  fun _ b m w hwf => ⟨_, _, _, rfl, bounded_convertsTo hwf b.latch.x m w false,
    inexact_bounded_iff_not_integral hwf b.latch.x m w false⟩

/-- Settles O30: UFROMFPX converts as UFROMFP does, and its result is inexact when rounding changed the
operand. -/
theorem ufromfpxReportsInexactness : Obligations.UfromfpxReportsInexactness :=
  fun _ b m w hwf => ⟨_, _, _, rfl, bounded_convertsTo hwf b.latch.x m w true,
    inexact_bounded_iff_not_integral hwf b.latch.x m w true⟩

/-- Settles O31: the exponent compares the magnitude with a power of two. -/
theorem rangeTestsAreTheStatedRanges : Obligations.RangeTestsAreTheStatedRanges := by
  intro f r w hwf _ hint hw
  obtain ⟨n, rfl⟩ := Nat.exists_eq_add_of_le' hw
  exact ⟨inSignedRange_iff hwf hint n, inUnsignedRange_iff hwf hint (n + 1)⟩

/-- Settles O32: a valid result is a correct rounding of a finite operand, and every other is `QNAN`. -/
theorem boundedResultIsAnIntegerOrQnan : Obligations.BoundedResultIsAnIntegerOrQnan := by
  intro f x m w unsigned hwf
  refine ⟨fun hvalid => ?_, bounded_qnan_of_domErr, isNan_qnan hwf,
    inexact_bounded_iff_ne hwf x m w unsigned⟩
  obtain ⟨y, hb, hx, hround⟩ | hb := bounded_result_cases hwf x m w unsigned
  · rw [hb]
    exact ⟨hround.isFinite_eq.trans hx, hround.integral hx⟩
  · rw [hb] at hvalid
    nomatch hvalid

end Sys2Proof.Machine
end

section
/-!
Narrowing (`44_native_conversion.md` R110, R114).  `NARROW` keeps a finite value exactly when it passes
the range test of the bounded conversions (R102), so a narrowed rounding is R114's result by the signed
domain of R109.
-/

namespace Sys2Proof

theorem IntWidth.bits_ne_zero (iw : IntWidth) : iw.bits ≠ 0 := by cases iw <;> decide

theorem IntWidth.bits_le_64 (iw : IntWidth) : iw.bits ≤ 64 := by cases iw <;> decide

end Sys2Proof

namespace Sys2Proof.Machine

variable {f : Fmt} {m : Mode} {w : ℕ} {x y r : FpWord f}

/-! ### The two outcomes of `NARROW` -/

theorem clampBound_eq_ite (r : FpWord f) (w : ℕ) :
    clampBound f r w = if sign f r = 1#1 then intMin w else intMax w :=
  if_congr beq_iff_eq rfl rfl

theorem narrow_of_not_isFinite (h : isFinite f r = false) (w : ℕ) :
    narrow f r w = (clampBound f r w, true) :=
  if_pos (by simpa [isFinite] using h)

/-- The exponent tests of R110 are the range test of R102, which asks first for a zero: the exponent of a
zero is below every bound of R110. -/
theorem narrow_of_isFinite (hwf : f.WF) (h : isFinite f r = true) (w : ℕ) :
    narrow f r w =
      if inSignedRange f r w = true then (intOf f r, false) else (clampBound f r w, true) := by
  have hinf : isInfOrNan f r = false := by simpa [isFinite] using h
  have hrange : inSignedRange f r w = true ↔ ¬ ((w : ℤ) - 1 < exponent f r ∨
      exponent f r = (w : ℤ) - 1 ∧ (isNeg f r = false ∨ (mant f r).toNat ≠ 0)) := by
    cases hzero : isZero f r with
    | true =>
      have hexp := exponent_of_isZero hzero
      have hbias := f.three_le_bias hwf
      exact iff_of_true (if_pos hzero) (by omega)
    | false =>
      cases hneg : isNeg f r with
      | true =>
        simp only [inSignedRange, hzero, hneg, Bool.false_eq_true, Bool.true_eq_false, if_false, if_true,
          Bool.or_eq_true, Bool.and_eq_true, decide_eq_true_eq, beq_iff_eq, false_or]
        omega
      | false =>
        simp only [inSignedRange, hzero, hneg, Bool.false_eq_true, if_false, decide_eq_true_eq, true_or,
          and_true]
        omega
  rw [narrow, hinf, if_neg Bool.false_ne_true, if_congr hrange rfl rfl, ite_not, ite_or]

/-! ### A narrowed rounding -/

theorem RoundsTo.sign_eq (h : RoundsTo f m x y) : sign f y = sign f x := by
  cases hx : isFinite f x with
  | true => exact (h.1 hx).2.2
  | false => rw [h.2 hx]

theorem inSignedRange_rndm_iff (hwf : f.WF) (hw : w ≠ 0) (hx : isFinite f x = true) :
    inSignedRange f (rndm f x m) w = true ↔ InDomain f m w false x :=
  rangeTest_iff_inDomain (unsigned := false) hwf hw hx

theorem narrow_rndm_of_inDomain (hwf : f.WF) (h : InDomain f m w false x) :
    narrow f (rndm f x m) w = (roundMath (val f x) m, false) := by
  obtain ⟨hw, hx, -⟩ := id h
  have hw0 : w ≠ 0 := by omega
  have hround := rndm_roundsTo hwf x m
  obtain ⟨hfin, hval, -⟩ := hround.1 hx
  have hint : intOf f (rndm f x m) = roundMath (val f x) m :=
    Int.cast_injective ((intOf_eq_val hwf (hround.integral hx)).trans hval)
  rw [narrow_of_isFinite hwf hfin, if_pos ((inSignedRange_rndm_iff hwf hw0 hx).mpr h), hint]

/-- Rounding keeps the sign bit, so the bound is on the side of the operand. -/
theorem narrow_rndm_of_not_inDomain (hwf : f.WF) (hw : w ≠ 0) (h : ¬ InDomain f m w false x) :
    narrow f (rndm f x m) w = (clampBound f x w, true) := by
  have hround := rndm_roundsTo hwf x m
  have hbound : clampBound f (rndm f x m) w = clampBound f x w := by
    rw [clampBound_eq_ite, clampBound_eq_ite, hround.sign_eq]
  rw [← hbound]
  cases hx : isFinite f x with
  | true =>
    rw [narrow_of_isFinite hwf (hround.isFinite_eq.trans hx),
      if_neg (mt (inSignedRange_rndm_iff hwf hw hx).mp h)]
  | false => exact narrow_of_not_isFinite (hround.isFinite_eq.trans hx) w

/-! ### The integer port -/

theorem intMin_le_intMax (w : ℕ) : intMin w ≤ intMax w := by
  have hpow : (0 : ℤ) < 2 ^ (w - 1) := by positivity
  rw [intMin, intMax]
  omega

theorem clampBound_mem (x : FpWord f) (w : ℕ) : clampBound f x w ∈ Set.Icc (intMin w) (intMax w) := by
  rw [clampBound]
  split
  · exact Set.left_mem_Icc.mpr (intMin_le_intMax w)
  · exact Set.right_mem_Icc.mpr (intMin_le_intMax w)

/-- Narrowing gives an integer of the type. -/
theorem narrow_rndm_mem (hwf : f.WF) (hw : w ≠ 0) (x : FpWord f) (m : Mode) :
    (narrow f (rndm f x m) w).1 ∈ Set.Icc (intMin w) (intMax w) := by
  by_cases h : InDomain f m w false x
  · rw [narrow_rndm_of_inDomain hwf h]
    obtain ⟨-, -, hrange⟩ := h
    exact hrange
  · rw [narrow_rndm_of_not_inDomain hwf hw h]
    exact clampBound_mem x w

theorem toInt_ofInt_of_mem {i : ℤ} {v : ℕ} (hw : w ≠ 0) (hwv : w ≤ v)
    (h : i ∈ Set.Icc (intMin w) (intMax w)) : (BitVec.ofInt v i).toInt = i := by
  obtain ⟨hlo, hhi⟩ := h
  have hpow : (2 : ℤ) ^ (w - 1) ≤ 2 ^ (v - 1) := pow_le_pow_right₀ one_le_two (by omega)
  rw [intMin] at hlo
  rw [intMax] at hhi
  exact BitVec.toInt_ofInt_eq_self (by omega) (by omega) (by omega)

/-- R113: the port shows the integer of the type sign-extended. -/
theorem ofInt_eq_signExtend {i : ℤ} {v : ℕ} (hw : w ≠ 0) (hwv : w ≤ v)
    (h : i ∈ Set.Icc (intMin w) (intMax w)) : BitVec.ofInt v i = (BitVec.ofInt w i).signExtend v := by
  refine BitVec.eq_of_toInt_eq ?_
  rw [BitVec.toInt_signExtend_of_le hwv, toInt_ofInt_of_mem hw hwv h, toInt_ofInt_of_mem hw le_rfl h]

theorem getLsbD_signExtend_eq_msb (b : BitVec w) {v k : ℕ} (hk : w - 1 ≤ k) (hkv : k < v) :
    (b.signExtend v).getLsbD k = b.msb := by
  rw [BitVec.getLsbD_signExtend, decide_eq_true hkv, Bool.true_and]
  split
  · rw [BitVec.msb_eq_getLsbD_last, show k = w - 1 by omega]
  · rfl

/-- R114 of a rounding narrowed to a native width and put on the port. -/
theorem narrow_rndm_narrowsTo (hwf : f.WF) (x : FpWord f) (m : Mode) (iw : IntWidth) :
    NarrowsTo f m iw.bits x (BitVec.ofInt 64 (narrow f (rndm f x m) iw.bits).1)
      (narrow f (rndm f x m) iw.bits).2 := by
  have hw := iw.bits_ne_zero
  rw [NarrowsTo, toInt_ofInt_of_mem hw iw.bits_le_64 (narrow_rndm_mem hwf hw x m)]
  refine ⟨fun h => ?_, fun h => ?_⟩
  · rw [narrow_rndm_of_inDomain hwf ⟨Nat.one_le_iff_ne_zero.mpr hw, h⟩]
    exact ⟨rfl, rfl⟩
  · rw [narrow_rndm_of_not_inDomain hwf hw fun ⟨_, hfits⟩ => h hfits]
    exact ⟨rfl, clampBound_eq_ite x _⟩

theorem getLsbD_iOut_nativeResponse (hwf : f.WF) (x : FpWord f) (m : Mode) (iw : IntWidth) {k : ℕ}
    (hk : iw.bits ≤ k) (hk64 : k < 64) :
    (nativeResponse f (rndm f x m) iw).iOut.getLsbD k =
      (nativeResponse f (rndm f x m) iw).iOut.getLsbD (iw.bits - 1) := by
  have hw := iw.bits_ne_zero
  have hsext : (nativeResponse f (rndm f x m) iw).iOut =
      (BitVec.ofInt iw.bits (narrow f (rndm f x m) iw.bits).1).signExtend 64 :=
    ofInt_eq_signExtend hw iw.bits_le_64 (narrow_rndm_mem hwf hw x m)
  rw [hsext, getLsbD_signExtend_eq_msb _ (by omega) hk64,
    getLsbD_signExtend_eq_msb _ le_rfl (by omega)]

/-! ### The statements -/

/-- RTSI rounds under NA (R111), because ROUND is RNDM under NA. -/
theorem exec_rtsi (hwf : f.WF) (b : Block f) (iw : IntWidth) :
    exec (.rtsi iw) ⟨f, b⟩ =
      .next ⟨f, afterResponse b (nativeResponse f (rndm f b.latch.x .na) iw)⟩ := by
  rw [← round_eq_rndm hwf]
  rfl

/-- RTSIC rounds under the ambient mode sampled at acceptance (R112). -/
theorem exec_rtsic {b : Block f} (hmode : b.latch.frmS = m.code) (iw : IntWidth) :
    exec (.rtsic iw) ⟨f, b⟩ = .next ⟨f, afterResponse b (nativeResponse f (rndm f b.latch.x m) iw)⟩ :=
  State.withAmbientMode_of_code _ _ m hmode

/-- Settles O33: RTSI narrows a rounding under NA. -/
theorem rtsiRoundsAndClamps : Obligations.RtsiRoundsAndClamps :=
  fun _ b iw hwf => ⟨_, _, exec_rtsi hwf b iw, narrow_rndm_narrowsTo hwf b.latch.x .na iw⟩

/-- Settles O34: RTSIC narrows a rounding under the sampled mode. -/
theorem rtsicRoundsAndClamps : Obligations.RtsicRoundsAndClamps :=
  fun _ b iw m hwf hmode => ⟨_, _, exec_rtsic hmode iw, narrow_rndm_narrowsTo hwf b.latch.x m iw⟩

/-- Settles O35: code 4 is NA, under which RTSI rounds. -/
theorem rtsicUnderTiesAwayIsRtsi : Obligations.RtsicUnderTiesAwayIsRtsi :=
  fun s iw hwf hmode => (exec_rtsic (m := .na) hmode iw).trans (exec_rtsi hwf s.block iw).symm

/-- Settles O36: of the finite integral values those in the range pass the range test. -/
theorem narrowingClampsToTheRange : Obligations.NarrowingClampsToTheRange := by
  intro f r iw hwf bound
  have hbound : clampBound f r iw.bits = bound := clampBound_eq_ite r iw.bits
  have hw := iw.bits_ne_zero
  refine ⟨fun h => hbound ▸ narrow_of_not_isFinite h _, fun hfin hint => ?_⟩
  have hrange := inSignedRange_iff hwf hint (iw.bits - 1)
  rw [Nat.sub_add_cancel (Nat.one_le_iff_ne_zero.mpr hw)] at hrange
  rw [narrow_of_isFinite hwf hfin, ← hrange, ← hbound]
  refine ⟨fun hin => ?_, fun hout => if_neg hout⟩
  rw [if_pos hin]
  exact ⟨intOf_eq_val hwf hint, rfl⟩

/-- Settles O37: either command answers with a narrowed rounding, and RTSIC without a mode does not
answer. -/
theorem integerPortIsSignExtended : Obligations.IntegerPortIsSignExtended := by
  intro f b iw t hwf h
  obtain ⟨m, hm⟩ : ∃ m, Host.Outcome.next t =
      .next ⟨f, afterResponse b (nativeResponse f (rndm f b.latch.x m) iw)⟩ := by
    obtain hrtsi | hrtsic := h
    · exact ⟨.na, hrtsi.symm.trans (exec_rtsi hwf b iw)⟩
    · obtain ⟨m, hmode, -⟩ | ⟨-, hfault⟩ := State.withAmbientMode_cases ⟨f, b⟩ fun m =>
        State.answer ⟨f, b⟩ (nativeResponse f (rndm f b.latch.x m) iw)
      · exact ⟨m, hrtsic.symm.trans (exec_rtsic hmode iw)⟩
      · nomatch hfault.symm.trans hrtsic
  obtain rfl := Host.Outcome.next.inj hm
  exact ⟨_, rfl, rfl, fun _ => getLsbD_iOut_nativeResponse hwf b.latch.x m iw⟩

end Sys2Proof.Machine
end

section
/-!
Error responses (`60_exceptions.md` R120, R125 to R127).  An operation has no response exactly when it
samples an undefined mode; the machine then faults where the transaction answers with that fault's code,
and an illegal word goes the same way.  Everything else is answered, and answered alike by both.
-/

namespace Sys2Proof.Machine

variable {f : Fmt} {b : Block f} {rest : List (HostEvent f)} {w : CmdWord} {i : Instr}

/-! ### Commands and the ambient mode -/

theorem operation_eq_none_iff {x : FpWord f} {frmS : BitVec 3} :
    operation f i x frmS = none ↔ i.readsAmbientMode = true ∧ 4 < frmS.toNat := by
  rw [← Option.not_isSome_iff_eq_none, operation_isSome]
  simp

theorem readsAmbientMode_eq_false_of_ne (hrndc : i ≠ .rndc) (hrtsic : ∀ iw, i ≠ .rtsic iw) :
    i.readsAmbientMode = false := by
  cases i with
  | rndc => exact absurd rfl hrndc
  | rtsic iw => exact absurd rfl (hrtsic iw)
  | _ => rfl

/-- A command that does not sample the mode has one response under every sampled mode (R127). -/
theorem exists_operation_eq_some (h : i.readsAmbientMode = false) (x : FpWord f) :
    ∃ r, ∀ frmS, operation f i x frmS = some r := by
  cases i with
  | rndc | rtsic iw => nomatch h
  | _ => exact ⟨_, fun _ => rfl⟩

theorem exec_of_operation_eq_none {s : State} (h : operation s.fmt i s.x s.frmS = none) :
    exec i s = .fault .envModeUndefined := by
  rw [exec_eq_operation, h]

theorem answerInFlight_of_operation_eq_none (hi : decode b.latch.cmd = .ok i)
    (h : operation f i b.latch.x b.latch.frmS = none) :
    answerInFlight ⟨f, b⟩ = .fault .envModeUndefined :=
  (answerInFlight_of_decode hi).trans (exec_of_operation_eq_none h)

/-! ### The transaction of a legal word -/

theorem transaction_of_operation_eq_none {x : FpWord f} {env : Env} (hi : decode w = .ok i)
    (h : operation f i x env.frm = none) : transaction f w x env = (errResponse f 2#2, env) := by
  simp [transaction, hi, h, Fault.errCode]

theorem transaction_of_operation_eq_some {x : FpWord f} {env : Env} {r : Response f}
    (hi : decode w = .ok i) (h : operation f i x env.frm = some r) :
    transaction f w x env = (r, env.accumulate r) := by
  simp [transaction, hi, h]

/-- A ready block's step on a command and the hardware's transaction: one response and one `ENV`, or a
fault and its error code with `ENV` as it was. -/
theorem step_command_transaction_cases {x : FpWord f} (hbusy : b.busy = false)
    (hhost : b.host = .command w x :: rest) :
    (∃ r, r.err = 0#2 ∧ transaction f w x b.env = (r, b.env.accumulate r) ∧
      step ⟨f, b⟩ =
        .next ⟨f, ⟨b.env.accumulate r, false, ⟨w, x, b.env.frm⟩, some r, none, rest⟩⟩) ∨
    (∃ φ : Fault, transaction f w x b.env = (errResponse f φ.errCode, b.env) ∧
      step ⟨f, b⟩ = .fault φ) := by
  rw [step_command hbusy hhost]
  cases hi : decode w with
  | error e => exact .inr ⟨.illegalCmd, transaction_of_illegal hi x b.env, answerInFlight_of_illegal hi⟩
  | ok i =>
    cases hr : operation f i x b.env.frm with
    | none =>
      exact .inr ⟨.envModeUndefined, transaction_of_operation_eq_none hi hr,
        answerInFlight_of_operation_eq_none hi hr⟩
    | some r =>
      exact .inl ⟨r, operation_err hr, transaction_of_operation_eq_some hi hr,
        answerInFlight_eq_next_iff.mpr ⟨i, r, hi, hr, rfl⟩⟩

/-! ### The statements -/

/-- Settles O40: RNDC and RTSIC are the commands that sample the mode, and only they have no operation
under an undefined one. -/
theorem undefinedModeStopsOnlyRndcAndRtsic : Obligations.UndefinedModeStopsOnlyRndcAndRtsic := by
  refine ⟨fun s hmode => ⟨?_, fun iw => ?_⟩, fun f w x e hmode hw => ?_, fun f b i hrndc hrtsic => ?_⟩
  · exact exec_of_operation_eq_none (operation_eq_none_iff.mpr ⟨rfl, hmode⟩)
  · exact exec_of_operation_eq_none (operation_eq_none_iff.mpr ⟨rfl, hmode⟩)
  · obtain hi | ⟨iw, hi⟩ := hw
    · exact transaction_of_operation_eq_none hi (operation_eq_none_iff.mpr ⟨rfl, hmode⟩)
    · exact transaction_of_operation_eq_none hi (operation_eq_none_iff.mpr ⟨rfl, hmode⟩)
  · obtain ⟨r, hr⟩ := exists_operation_eq_some (readsAmbientMode_eq_false_of_ne hrndc hrtsic) b.latch.x
    exact ⟨r, operation_err (hr b.latch.frmS), fun frm frmS => exec_eq_next_iff.mpr ⟨r, hr frmS, rfl⟩⟩

/-- Settles O41: the step and the transaction answer alike, or the one faults and the other answers the
fault's code, which is 1 or 2. -/
theorem stepIsTheTransaction : Obligations.StepIsTheTransaction := by
  intro f b w x rest hbusy hhost
  obtain ⟨r, herr, htrans, hstep⟩ | ⟨φ, htrans, hstep⟩ := step_command_transaction_cases hbusy hhost
  · simp [htrans, herr, hstep]
  · cases φ with
    | illegalCmd => simp [htrans, hstep, errResponse, Fault.errCode]
    | envModeUndefined => simp [htrans, hstep, errResponse, Fault.errCode]

end Sys2Proof.Machine
end

section
/-!
Reset (`70_reset_and_hazards.md` R140) and a read in the response cycle (R142 H3).  A reset leaves the
reset block with the host's remaining events.  In a response cycle the read is made first: the command
then answers from a block that holds the value read, so its signals reach `ENV` and not that value.
-/

namespace Sys2Proof.Machine

variable {f : Fmt} {b : Block f} {rest : List (HostEvent f)}

/-! ### Steps on a reset and on a read in the response cycle -/

theorem step_reset (h : b.host = .reset :: rest) :
    step ⟨f, b⟩ = .next ⟨f, { Block.reset f with host := rest }⟩ := by
  rw [step_event b rest _ h]
  rfl

theorem step_respond_hread {n : Nat} (hbusy : b.busy = true)
    (h : b.host = .respond (some (.hread n)) :: rest) :
    step ⟨f, b⟩ =
      answerInFlight ⟨f, ⟨b.env, true, b.latch, none, some (b.env.hread n), rest⟩⟩ := by
  rw [step_event b rest _ h, Block.clearPorts_of_busy hbusy]
  rfl

/-! ### The statements -/

/-- Settles O49: the read is made between the acceptance and the answer, on an `ENV` that the acceptance
left as it was. -/
theorem readInResponseCycleSeesTheOldEnv : Obligations.ReadInResponseCycleSeesTheOldEnv := by
  intro f b w x rest hbusy hhost r e herr
  obtain ⟨i, hi, hr⟩ := transaction_ok herr
  have he : e = b.env.accumulate r :=
    congrArg Prod.snd (transaction_of_operation_eq_some hi hr)
  have haccept := step_accept hbusy hhost
  have hanswer := (step_respond_hread
    (b := ⟨b.env, true, ⟨w, x, b.env.frm⟩, none, none, .respond (some (.hread 1)) :: rest⟩) rfl rfl).trans
    (answerInFlight_eq_next_iff.mpr ⟨i, r, hi, hr, rfl⟩)
  rw [he, run_succ_of_step haccept 1, run_one]
  exact ⟨b.env.hread 1, hanswer, b.env.hread_fflags_toNat⟩

/-- Settles O52: the reset block is ready, so it accepts the next command under the reset mode. -/
theorem resetAbandonsTheCommandInFlight : Obligations.ResetAbandonsTheCommandInFlight := by
  refine fun f b w x rest => ⟨step_reset, fun hhost => ?_⟩
  have haccept := step_accept (b := { Block.reset f with host := .accept w x :: rest }) rfl rfl
  exact (run_succ_of_step (step_reset hhost) 1).trans ((run_one _).trans haccept)

end Sys2Proof.Machine
end
